-- ==== Sys2Proof/Word.lean ====
section
/-! DEFINITION. The word types of the hardware: bytes, 16-bit words, 12-bit addresses, nibbles
(spec/10_state.md R20, R23, R25; spec/30_encoding.md R71). All values are unsigned
(spec/00_scope.md R11). -/

namespace Sys2Proof

/-- A byte of memory, a general register or a timer (R20, R28 to R30). -/
abbrev Byte := BitVec 8

/-- A 16-bit word: the program counter, the index register, a stack entry, an instruction word
(R23, R25, R26, R70). -/
abbrev Word := BitVec 16

/-- The 12-bit address field `nnn` of an instruction word (R71, R73). -/
abbrev Addr := BitVec 12

/-- A 4-bit field of an instruction word (spec/00_scope.md R12, R15). -/
abbrev Nibble := BitVec 4

/-- The number of a general register, 0 to 15: every value names a register (R20, R73). -/
abbrev Reg := Fin 16

end Sys2Proof
end

