-- ==== Sys2Proof/Syntax.lean ====
section
/-! DEFINITION. The 34 instructions of spec/30_encoding.md R74, one constructor per row of
spec/opcode_table.json. Operand types are the fields of R71: a register number is a `Reg`, `nn` a
byte, `nnn` a 12-bit address, and the sprite height `n` a count. -/

namespace Sys2Proof

/-- An instruction with its operands (R74). -/
inductive Instr where
  /-- `00E0` CLS (R150). -/
  | cls
  /-- `00EE` RET (R100). -/
  | ret
  /-- `1nnn` JP nnn (R101). -/
  | jp (nnn : Addr)
  /-- `2nnn` CALL nnn (R102). -/
  | call (nnn : Addr)
  /-- `3xnn` SE Vx, nn (R104). -/
  | seImm (x : Reg) (nn : Byte)
  /-- `4xnn` SNE Vx, nn (R105). -/
  | sneImm (x : Reg) (nn : Byte)
  /-- `5xy0` SE Vx, Vy (R106). -/
  | seReg (x y : Reg)
  /-- `6xnn` LD Vx, nn (R122). -/
  | ldImm (x : Reg) (nn : Byte)
  /-- `7xnn` ADD Vx, nn (R123). -/
  | addImm (x : Reg) (nn : Byte)
  /-- `8xy0` LD Vx, Vy (R124). -/
  | ldReg (x y : Reg)
  /-- `8xy1` OR Vx, Vy (R125). -/
  | orReg (x y : Reg)
  /-- `8xy2` AND Vx, Vy (R126). -/
  | andReg (x y : Reg)
  /-- `8xy3` XOR Vx, Vy (R127). -/
  | xorReg (x y : Reg)
  /-- `8xy4` ADD Vx, Vy (R128). -/
  | addReg (x y : Reg)
  /-- `8xy5` SUB Vx, Vy (R129). -/
  | subReg (x y : Reg)
  /-- `8xy6` SHR Vx; `y` is decoded and ignored (R130). -/
  | shr (x y : Reg)
  /-- `8xy7` SUBN Vx, Vy (R131). -/
  | subnReg (x y : Reg)
  /-- `8xyE` SHL Vx; `y` is decoded and ignored (R132). -/
  | shl (x y : Reg)
  /-- `9xy0` SNE Vx, Vy (R107). -/
  | sneReg (x y : Reg)
  /-- `Annn` LD I, nnn (R140). -/
  | ldI (nnn : Addr)
  /-- `Bnnn` JP V0, nnn (R103). -/
  | jpV0 (nnn : Addr)
  /-- `Cxnn` RND Vx, nn (R133). -/
  | rnd (x : Reg) (nn : Byte)
  /-- `Dxyn` DRW Vx, Vy, n; `n` counts sprite rows (R152). -/
  | drw (x y : Reg) (n : Nat)
  /-- `Ex9E` SKP Vx (R160). -/
  | skp (x : Reg)
  /-- `ExA1` SKNP Vx (R161). -/
  | sknp (x : Reg)
  /-- `Fx07` LD Vx, DT (R163). -/
  | ldVxDT (x : Reg)
  /-- `Fx0A` LD Vx, K (R164). -/
  | ldVxK (x : Reg)
  /-- `Fx15` LD DT, Vx (R165). -/
  | ldDTVx (x : Reg)
  /-- `Fx18` LD ST, Vx (R166). -/
  | ldSTVx (x : Reg)
  /-- `Fx1E` ADD I, Vx (R141). -/
  | addI (x : Reg)
  /-- `Fx29` LD F, Vx (R142). -/
  | ldF (x : Reg)
  /-- `Fx33` LD B, Vx (R143). -/
  | ldB (x : Reg)
  /-- `Fx55` LD [I], Vx (R144). -/
  | storeRegs (x : Reg)
  /-- `Fx65` LD Vx, [I] (R145). -/
  | loadRegs (x : Reg)
deriving DecidableEq, Repr

end Sys2Proof
end

