-- ==== Sys2Proof/Decode.lean ====
section
/-! DEFINITION. Decoding and encoding (spec/30_encoding.md). The opcode map of R74 is ONE table of
mask, match and operand fields, so that a sub-opcode value the source does not confirm (N1, G1, G2,
log 16) is corrected in one place. The decoder is total: every word is one of the 34 instructions or
unknown (R77). -/

namespace Sys2Proof

/-! ### Fields of an instruction word (R71) -/

/-- `x = op[11:8]`, a register number. -/
def fieldX (op : Word) : Reg := (op.extractLsb' 8 4).toFin

/-- `y = op[7:4]`, a register number. -/
def fieldY (op : Word) : Reg := (op.extractLsb' 4 4).toFin

/-- `n = op[3:0]`, a count. -/
def fieldN (op : Word) : Nat := (op.extractLsb' 0 4).toNat

/-- `nn = op[7:0]`. -/
def fieldNN (op : Word) : Byte := op.extractLsb' 0 8

/-- `nnn = op[11:0]`. -/
def fieldNNN (op : Word) : Addr := op.extractLsb' 0 12

/-! ### The opcode map (R74) -/

/-- One row of the opcode map: the word is the instruction when `op & mask == bits`. -/
structure OpcodeRow where
  mask : Word
  bits : Word
  build : Word → Instr

/-- The mask-and-match test of R74. -/
def OpcodeRow.matches (r : OpcodeRow) (op : Word) : Bool := op &&& r.mask == r.bits

/-- Families 0 to 7. -/
def opcodeRowsLow : List OpcodeRow :=
  [⟨0xFFFF, 0x00E0, fun _ => .cls⟩,
   ⟨0xFFFF, 0x00EE, fun _ => .ret⟩,
   ⟨0xF000, 0x1000, fun op => .jp (fieldNNN op)⟩,
   ⟨0xF000, 0x2000, fun op => .call (fieldNNN op)⟩,
   ⟨0xF000, 0x3000, fun op => .seImm (fieldX op) (fieldNN op)⟩,
   ⟨0xF000, 0x4000, fun op => .sneImm (fieldX op) (fieldNN op)⟩,
   ⟨0xF00F, 0x5000, fun op => .seReg (fieldX op) (fieldY op)⟩,
   ⟨0xF000, 0x6000, fun op => .ldImm (fieldX op) (fieldNN op)⟩,
   ⟨0xF000, 0x7000, fun op => .addImm (fieldX op) (fieldNN op)⟩]

/-- Families 8 to D. -/
def opcodeRowsMiddle : List OpcodeRow :=
  [⟨0xF00F, 0x8000, fun op => .ldReg (fieldX op) (fieldY op)⟩,
   ⟨0xF00F, 0x8001, fun op => .orReg (fieldX op) (fieldY op)⟩,
   ⟨0xF00F, 0x8002, fun op => .andReg (fieldX op) (fieldY op)⟩,
   ⟨0xF00F, 0x8003, fun op => .xorReg (fieldX op) (fieldY op)⟩,
   ⟨0xF00F, 0x8004, fun op => .addReg (fieldX op) (fieldY op)⟩,
   ⟨0xF00F, 0x8005, fun op => .subReg (fieldX op) (fieldY op)⟩,
   ⟨0xF00F, 0x8006, fun op => .shr (fieldX op) (fieldY op)⟩,
   ⟨0xF00F, 0x8007, fun op => .subnReg (fieldX op) (fieldY op)⟩,
   ⟨0xF00F, 0x800E, fun op => .shl (fieldX op) (fieldY op)⟩,
   ⟨0xF00F, 0x9000, fun op => .sneReg (fieldX op) (fieldY op)⟩,
   ⟨0xF000, 0xA000, fun op => .ldI (fieldNNN op)⟩,
   ⟨0xF000, 0xB000, fun op => .jpV0 (fieldNNN op)⟩,
   ⟨0xF000, 0xC000, fun op => .rnd (fieldX op) (fieldNN op)⟩,
   ⟨0xF000, 0xD000, fun op => .drw (fieldX op) (fieldY op) (fieldN op)⟩]

/-- Families E and F. -/
def opcodeRowsHigh : List OpcodeRow :=
  [⟨0xF0FF, 0xE09E, fun op => .skp (fieldX op)⟩,
   ⟨0xF0FF, 0xE0A1, fun op => .sknp (fieldX op)⟩,
   ⟨0xF0FF, 0xF007, fun op => .ldVxDT (fieldX op)⟩,
   ⟨0xF0FF, 0xF00A, fun op => .ldVxK (fieldX op)⟩,
   ⟨0xF0FF, 0xF015, fun op => .ldDTVx (fieldX op)⟩,
   ⟨0xF0FF, 0xF018, fun op => .ldSTVx (fieldX op)⟩,
   ⟨0xF0FF, 0xF01E, fun op => .addI (fieldX op)⟩,
   ⟨0xF0FF, 0xF029, fun op => .ldF (fieldX op)⟩,
   ⟨0xF0FF, 0xF033, fun op => .ldB (fieldX op)⟩,
   ⟨0xF0FF, 0xF055, fun op => .storeRegs (fieldX op)⟩,
   ⟨0xF0FF, 0xF065, fun op => .loadRegs (fieldX op)⟩]

/-- The 34 rows of R74, in its order. -/
def opcodeRows : List OpcodeRow := opcodeRowsLow ++ opcodeRowsMiddle ++ opcodeRowsHigh

/-! ### The decoder (R75 to R77) -/

/-- `decode(op)` of R75 and R77: the instruction of the word, or `none` for an unknown opcode (R76).
The rows do not overlap, so their order does not matter (R75). -/
def decodeWord (op : Word) : Option Instr :=
  (opcodeRows.find? (·.matches op)).map (·.build op)

/-- Why bytes are no instruction. -/
inductive DecodeError where
  /-- Fewer than the two bytes an instruction has (R70). -/
  | truncated
  /-- The word is none of the 34 instructions (R76). -/
  | unknownOpcode (op : Word)
deriving DecidableEq, Repr

/-- The instruction word of two bytes in memory order: the byte at the lower address is the high
byte (spec/20_memory.md R52). -/
def wordOfBytes (hi lo : Byte) : Word := hi ++ lo

/-- The two bytes of an instruction word in memory order (R52, R70). -/
def bytesOfWord (op : Word) : List Byte := [op.extractLsb' 8 8, op.extractLsb' 0 8]

/-- Decode the instruction at the head of a list of bytes, and give the bytes after it. -/
def decode : List Byte → Except DecodeError (Instr × List Byte)
  | hi :: lo :: rest =>
    match decodeWord (wordOfBytes hi lo) with
    | some i => .ok (i, rest)
    | none => .error (.unknownOpcode (wordOfBytes hi lo))
  | _ => .error .truncated

/-- The instruction the decoder reads from an instruction whose bits are `w`, numbered as
spec/opcode_table.json numbers them. Every row has 16 bits, one word, stored high byte first. -/
def decodeTableWord (nbits w : Nat) : Option Instr :=
  match decode (bytesOfWord (BitVec.ofNat 16 (w % 2 ^ nbits))) with
  | .ok (i, _) => some i
  | .error _ => none

/-! ### The encoder (R71, R72) -/

/-- Format NNN: a family digit and an address. -/
def formatNNN (family : Nibble) (nnn : Addr) : Word := family ++ nnn

/-- Format XNN: a family digit, a register and a byte; format XSS puts its sub-opcode in that byte. -/
def formatXNN (family : Nibble) (x : Reg) (nn : Byte) : Word :=
  family ++ (BitVec.ofFin x : Nibble) ++ nn

/-- Format XYN: a family digit, two registers and a digit; format XYS puts its sub-opcode in that
digit. -/
def formatXYN (family : Nibble) (x y : Reg) (n : Nibble) : Word :=
  family ++ (BitVec.ofFin x : Nibble) ++ (BitVec.ofFin y : Nibble) ++ n

/-- The word of an instruction (R72, R74). -/
def encode : Instr → Word
  | .cls => 0x00E0
  | .ret => 0x00EE
  | .jp nnn => formatNNN 0x1 nnn
  | .call nnn => formatNNN 0x2 nnn
  | .seImm x nn => formatXNN 0x3 x nn
  | .sneImm x nn => formatXNN 0x4 x nn
  | .seReg x y => formatXYN 0x5 x y 0x0
  | .ldImm x nn => formatXNN 0x6 x nn
  | .addImm x nn => formatXNN 0x7 x nn
  | .ldReg x y => formatXYN 0x8 x y 0x0
  | .orReg x y => formatXYN 0x8 x y 0x1
  | .andReg x y => formatXYN 0x8 x y 0x2
  | .xorReg x y => formatXYN 0x8 x y 0x3
  | .addReg x y => formatXYN 0x8 x y 0x4
  | .subReg x y => formatXYN 0x8 x y 0x5
  | .shr x y => formatXYN 0x8 x y 0x6
  | .subnReg x y => formatXYN 0x8 x y 0x7
  | .shl x y => formatXYN 0x8 x y 0xE
  | .sneReg x y => formatXYN 0x9 x y 0x0
  | .ldI nnn => formatNNN 0xA nnn
  | .jpV0 nnn => formatNNN 0xB nnn
  | .rnd x nn => formatXNN 0xC x nn
  | .drw x y n => formatXYN 0xD x y (BitVec.ofNat 4 n)
  | .skp x => formatXNN 0xE x 0x9E
  | .sknp x => formatXNN 0xE x 0xA1
  | .ldVxDT x => formatXNN 0xF x 0x07
  | .ldVxK x => formatXNN 0xF x 0x0A
  | .ldDTVx x => formatXNN 0xF x 0x15
  | .ldSTVx x => formatXNN 0xF x 0x18
  | .addI x => formatXNN 0xF x 0x1E
  | .ldF x => formatXNN 0xF x 0x29
  | .ldB x => formatXNN 0xF x 0x33
  | .storeRegs x => formatXNN 0xF x 0x55
  | .loadRegs x => formatXNN 0xF x 0x65

end Sys2Proof
end

