-- ==== Sys2Proof/Config.lean ====
section
/-! DEFINITION. The parameters of spec/00_scope.md R9, and the values the spec leaves open as
constants without a body: nothing in Lean can evaluate them, so whatever is proved holds for every
value they may have.

The quirk parameters of R9 (`SHIFT_SOURCE`, `FX1E_SETS_VF`, `DRAW_EDGE`, `LOADSTORE_INCREMENTS_I`,
`LOGIC_RESETS_VF`, `KEYWAIT`) have one value on this hardware each; the meanings are written for
that value and carry no switch. -/

namespace Sys2Proof.Config

/-- `MEM_SIZE`: bytes of memory, addresses 0x000 to 0xFFF (R9, R30). -/
abbrev memSize : Nat := 4096

/-- `PROG_ORIGIN`: load address of the program and reset value of `PC` (R9, R23). -/
abbrev progOrigin : Nat := 0x200

/-- `STACK_DEPTH`: entries of the return stack (R9, R26). -/
abbrev stackDepth : Nat := 16

/-- `FB_W`: columns of the framebuffer (R9, R31). -/
abbrev fbWidth : Nat := 64

/-- `FB_H`: rows of the framebuffer (R9, R31). -/
abbrev fbHeight : Nat := 32

/-- `FONT_GLYPH_BYTES`: bytes of one glyph (R9, R57). -/
abbrev glyphBytes : Nat := 5

/-- `FONT_BASE`: the address of the glyph of digit 0. The spec leaves it OPEN within 0 to 0x1B0
(R9, D4, U8), so it is a constant without a body; the type carries the bound. Log 4. -/
opaque fontBase : Fin 0x1B1

/-- `FONT_DATA`: the 80 glyph bytes, digit 0 first, five rows each (R57). PRESUMED: the spec itself
supplies the table from general knowledge (D5, G3). Log 5. -/
def fontData : List Byte :=
  [0xF0, 0x90, 0x90, 0x90, 0xF0,  0x20, 0x60, 0x20, 0x20, 0x70,
   0xF0, 0x10, 0xF0, 0x80, 0xF0,  0xF0, 0x10, 0xF0, 0x10, 0xF0] ++
  [0x90, 0x90, 0xF0, 0x10, 0x10,  0xF0, 0x80, 0xF0, 0x10, 0xF0,
   0xF0, 0x80, 0xF0, 0x90, 0xF0,  0xF0, 0x10, 0x20, 0x40, 0x40] ++
  [0xF0, 0x90, 0xF0, 0x90, 0xF0,  0xF0, 0x90, 0xF0, 0x10, 0xF0,
   0xF0, 0x90, 0xF0, 0x90, 0x90,  0xE0, 0x90, 0xE0, 0x90, 0xE0] ++
  [0xF0, 0x80, 0x80, 0x80, 0xF0,  0xE0, 0x90, 0x90, 0x90, 0xE0,
   0xF0, 0x80, 0xF0, 0x80, 0xF0,  0xF0, 0x80, 0xF0, 0x80, 0x80]

/-- The keypad sample of the `k`-th drawn cycle: free, under no law (R6, R32). Log 2. -/
opaque freeKeys : Nat → BitVec 16

/-- The random byte of the `k`-th drawn cycle: free, under no law (R6, R133, D21). Log 2. -/
opaque freeRnd : Nat → Byte

/-- How many `TICK` events fall before the `k`-th drawn cycle: `CYCLES_PER_TICK` is OPEN, so any
number may (R98, R207, D22). Log 3. -/
opaque freeTicks : Nat → Nat

end Sys2Proof.Config
end

