-- ==== Sys2Proof/Machine/State.lean ====
section
/-! DEFINITION. The state of the machine as plain data, and its reset value. Everything
spec/10_state.md gives the core is here (R20 to R34); the inputs, the output event and the host's
schedule, which are not state of the core (R32, R35, R36), stand in one record of the model's own,
`Io`. -/

namespace Sys2Proof.Machine

/-- The run state of the core (R33). The 2-bit codes are `Mode.code`. -/
inductive Mode where
  /-- The last cycle completed an instruction, or none has run yet. -/
  | run
  /-- The last cycle executed an `Fx0A` that found no key pressed. -/
  | waitKey
  /-- A cycle raised a halting cause. -/
  | halt
deriving DecidableEq, Repr

/-- The error taxonomy of spec/60_exceptions.md R170. The 3-bit codes are `Cause.code`. -/
inductive Cause where
  /-- No error. -/
  | none
  /-- A `LOAD` past the end of memory; never written to `CAUSE` (R34, R176). -/
  | romTooLarge
  /-- The word is none of the 34 instructions; never written to `CAUSE` (R34, R172). -/
  | unknownOpcode
  /-- A `2nnn` with a full stack (R173). -/
  | stackOverflow
  /-- A `00EE` with an empty stack (R174). -/
  | stackUnderflow
  /-- A fetch, jump target or data access outside memory (R175). -/
  | memoryOutOfBounds
deriving DecidableEq, Repr

/-- The four events by which the core's state changes (spec/00_scope.md R5). -/
inductive Event where
  /-- Every piece of state to its reset value (R200). -/
  | reset
  /-- The host copies bytes into memory (R60). -/
  | load (bytes : List Byte) (origin : Nat)
  /-- One fetch, decode and execute step on a keypad sample and a random byte (R6, R90). -/
  | cycle (keys : BitVec 16) (rnd : Byte)
  /-- One decrement of the two timers (R185). -/
  | tick
deriving DecidableEq, Repr

/-- What an event tells the host, beside `status` (R170). -/
inductive Report where
  /-- The output `report(op, a)` of a cycle that decoded an unknown opcode (R172). -/
  | unknownOpcode (op a : Word)
  /-- The answer to a `LOAD` that does not fit (R176). -/
  | romTooLarge
deriving DecidableEq, Repr

/-- Where the boot sequence stands: `LOAD` is used once, after `RESET` and before the first `CYCLE`
(R5, R60, R202). -/
inductive Boot where
  | afterReset
  | loaded
  /-- The one `LOAD` did not fit: the session is over until a `RESET` (R202, C7). -/
  | loadFailed
  | cycling
deriving DecidableEq, Repr

/-- The model's own record of what comes into and goes out of the core. None of it is state of the
core (R32, R35, R36); it stands here because `exec` and `step` take a state only. Logs 1, 2, 3, 8, 9. -/
structure Io where
  /-- The keypad sample of the current cycle, bit `k` set when key `k` is down (R6, R96). -/
  keys : BitVec 16
  /-- The random byte of the current cycle (R6, R133). -/
  rnd : Byte
  /-- What the last event reported, if anything (R7, R172, R176). -/
  report : Option Report
  /-- Events raised and not yet taken, oldest first. -/
  pending : List Event
  /-- How many cycles have taken their inputs from the free values of Config. -/
  draws : Nat
  /-- Where the boot sequence stands. -/
  boot : Boot
deriving DecidableEq, Repr

/-- Main memory: the bytes that differ from the reset contents, addresses strictly rising
(`Memory.wf`); every other address reads as `Memory.initial`. Log 11. -/
abbrev Memory := List Host.Cell

/-- The framebuffer: row `y` is a word of 64 one-bit pixels, bit `x` the pixel of column `x` (R31).
Log 15. -/
abbrev Framebuffer := Vector (BitVec 64) Config.fbHeight

/-- Everything the spec gives the machine, and the record `Io` of the model's own. -/
structure State where
  /-- `V[0]` to `V[15]` (R20); `VF` is `V[15]` (R22). -/
  v : Vector Byte 16
  /-- `I`, the index register (R25). -/
  i : Word
  /-- `PC`, the program counter (R23). -/
  pc : Word
  /-- `STACK[0]` to `STACK[15]` (R26). -/
  stack : Vector Word Config.stackDepth
  /-- `SP`, the number of live stack entries, 0 to 16 (R27). Log 12. -/
  sp : Fin 17
  /-- `DT`, the delay timer (R28). -/
  dt : Byte
  /-- `ST`, the sound timer (R29). -/
  st : Byte
  /-- `MEM` (R30). -/
  mem : Memory
  /-- `FB` (R31). -/
  fb : Framebuffer
  /-- `MODE` (R33). -/
  mode : Mode
  /-- `CAUSE` (R34). -/
  cause : Cause
  /-- Inputs, output event and schedule: not state of the core. -/
  io : Io
deriving DecidableEq, Repr

/-- Reasons to stop without a next state. EMPTY: every error of the spec leaves a state the spec
describes (R171 to R176), so a halting cycle is a next state with `mode = halt`. Nothing raises a
fault. Log 7. -/
inductive Fault where
deriving DecidableEq, Repr

/-- Reasons for which the model gives no meaning. -/
inductive Refusal where
  /-- Raised by `exec` for an instruction without a meaning; no arm raises it. Safe. -/
  | notModelled (mnemonic : String)
  /-- Raised by the event `LOAD` at an origin other than 0x200, or a second time, or after the first
  cycle: "outside what the source describes; a model should refuse it" (R60, D33). Safe. Log 9. -/
  | loadOutsideBoot
  /-- Raised by the event `CYCLE` after a `LOAD` that did not fit: "the core must not be cycled" (R60,
  R202). Safe. Log 18. -/
  | cycleAfterFailedLoad
deriving DecidableEq, Repr

/-- What an instruction or an event answers. -/
abbrev Result := Host.Outcome State Fault Refusal

/-- The model's own record right after reset, before any event. DESIGN CHOICE, log 17: no statement
rests on these values. -/
def Io.reset : Io :=
  { keys := 0, rnd := 0, report := none, pending := [], draws := 0, boot := .afterReset }

/-- The machine right after reset (spec/70_reset_and_hazards.md R200). Memory lists nothing: an
unlisted address reads as its reset contents. -/
def State.reset : State :=
  { v := Vector.replicate 16 0
    i := 0
    pc := 0x200
    stack := Vector.replicate Config.stackDepth 0
    sp := 0
    dt := 0
    st := 0
    mem := []
    fb := Vector.replicate Config.fbHeight 0
    mode := .run
    cause := .none
    io := Io.reset }

end Sys2Proof.Machine
end

