-- ==== Sys2Proof/Machine/Ops.lean ====
section
/-! DEFINITION. The named operations over registers, memory, stack, framebuffer and status, each
written once; and taking an error, the one shared `halt` (spec/60_exceptions.md R171). The spec has
no return from an error: only `RESET` leaves `HALT` (R180), see Machine/Events.lean. -/

namespace Sys2Proof.Machine

/-! ### Memory (spec/20_memory.md) -/

/-- What an address nothing has written holds: the font bytes at `FONT_BASE`, else zero (R51, R57,
R200). Addresses from 0x200 on are zero whatever `FONT_BASE` is (R51). -/
def Memory.initial (a : Nat) : Byte :=
  if Config.progOrigin ≤ a then 0
  else if a < Config.fontBase.val then 0
  else Config.fontData.getD (a - Config.fontBase.val) 0

/-- `MemRead(a, 1)`: the latest write to `a`, or the reset contents (R13, R59). Callers check
`a <= 0xFFF` first (R58, R91). -/
def Memory.read : Memory → Nat → Byte
  | [], a => Memory.initial a
  | (b, v) :: rest, a => if b = a then v else Memory.read rest a

/-- `MemWrite(a, 1, v)`: the cell of `a` replaced; no cell where `v` is the reset contents, so that
equal memories are equal lists (R13, log 11). Callers check `a <= 0xFFF` first (R58). -/
def Memory.write (m : Memory) (a : Nat) (v : Byte) : Memory :=
  m.filter (fun c => c.1 < a) ++
    (if v = Memory.initial a then [] else [(a, v)]) ++
    m.filter (fun c => a < c.1)

/-- The canonical form from address `lo` on: addresses strictly rising and inside memory, no cell
equal to the reset contents. -/
def Memory.wfFrom : Nat → Memory → Bool
  | _, [] => true
  | lo, (a, v) :: rest =>
    decide (lo ≤ a) && decide (a < Config.memSize) && (v != Memory.initial a) &&
      Memory.wfFrom (a + 1) rest

/-- The canonical form of memory. -/
def Memory.wf (m : Memory) : Bool := Memory.wfFrom 0 m

/-- Copy bytes to ascending addresses from `a` on (R60). -/
def Memory.load (m : Memory) (a : Nat) : List Byte → Memory
  | [] => m
  | b :: bs => Memory.load (m.write a b) (a + 1) bs

/-- One byte of the machine's memory. -/
def State.readByte (s : State) (a : Nat) : Byte := s.mem.read a

/-- The machine with its memory replaced. -/
def State.setMem (s : State) (m : Memory) : State := { s with mem := m }

/-- Store one byte. -/
def State.writeByte (s : State) (a : Nat) (v : Byte) : State := s.setMem (s.mem.write a v)

/-! ### Registers (spec/10_state.md) -/

/-- Read `V[x]` (R13, R20). -/
def State.reg (s : State) (x : Reg) : Byte := s.v[x]

/-- `V[x] <- b` (R13). No register is hard-wired (R20). -/
def State.setReg (s : State) (x : Reg) (b : Byte) : State := { s with v := s.v.set x b }

/-- `VF` is `V[15]` (R13, R22). -/
abbrev regF : Reg := 15

/-- `I <- w` (R25). -/
def State.setI (s : State) (w : Word) : State := { s with i := w }

/-- `PC <- w` (R23). -/
def State.setPC (s : State) (w : Word) : State := { s with pc := w }

/-- `DT <- b` (R28). -/
def State.setDT (s : State) (b : Byte) : State := { s with dt := b }

/-- `ST <- b` (R29). -/
def State.setST (s : State) (b : Byte) : State := { s with st := b }

/-- The machine with its framebuffer replaced. -/
def State.setFB (s : State) (fb : Framebuffer) : State := { s with fb := fb }

/-- The machine with `MODE` and `CAUSE` replaced (R33, R34). -/
def State.setStatus (s : State) (m : Mode) (c : Cause) : State := { s with mode := m, cause := c }

/-- The machine with the model's own record replaced. -/
def State.setIo (s : State) (io : Io) : State := { s with io := io }

/-- A skip: `PC <- PC + 2` when the condition holds (spec/40_cycle.md R92). -/
def State.skipIf (s : State) (c : Bool) : State := s.setPC (if c then s.pc + 2 else s.pc)

/-! ### The return stack (R26, R27) -/

/-- Stack entry `k` (R26). -/
def State.stackEntry (s : State) (k : Fin 16) : Word := s.stack[k]

/-- The machine with its stack and stack pointer replaced. -/
def State.setStack (s : State) (stack : Vector Word Config.stackDepth) (sp : Fin 17) : State :=
  { s with stack := stack, sp := sp }

/-- `STACK[SP] <- w; SP <- SP + 1`, for `SP < 16` (R27). -/
def State.push (s : State) (w : Word) : State :=
  s.setStack (s.stack.setIfInBounds s.sp w) (Fin.ofNat 17 (s.sp + 1))

/-- The entry `SP - 1`, which a return pops, for `SP > 0` (R27). -/
def State.top (s : State) : Word := s.stack.getD (s.sp - 1) 0

/-- `SP <- SP - 1`, the entry left in place, for `SP > 0` (R26, R27). -/
def State.drop (s : State) : State := s.setStack s.stack (Fin.ofNat 17 (s.sp - 1))

/-! ### The framebuffer (R31) -/

/-- The pixel at column `x` and row `y`; also the display's read port (R7, R31). -/
def Framebuffer.pixel (fb : Framebuffer) (x : Fin 64) (y : Fin 32) : Bool := fb[y].getLsbD x

/-- The pixel at column `x` and row `y` inverted. -/
def Framebuffer.flip (fb : Framebuffer) (x : Fin 64) (y : Fin 32) : Framebuffer :=
  fb.set y (fb[y] ^^^ (1#64 <<< x.val))

/-- The framebuffer with every pixel off (R150). -/
def Framebuffer.clear : Framebuffer := Vector.replicate Config.fbHeight 0

/-- A pixel of the machine's framebuffer. -/
def State.pixel (s : State) (x : Fin 64) (y : Fin 32) : Bool := s.fb.pixel x y

/-! ### Outputs and status (R7, R33, R34, R170) -/

/-- The code of `MODE` (R33). -/
def Mode.code : Mode → BitVec 2
  | .run => 0
  | .waitKey => 1
  | .halt => 2

/-- The code of a cause (R170). -/
def Cause.code : Cause → BitVec 3
  | .none => 0
  | .romTooLarge => 1
  | .unknownOpcode => 2
  | .stackOverflow => 3
  | .stackUnderflow => 4
  | .memoryOutOfBounds => 5

/-- The output `tone`: 1 exactly when `ST != 0` (R7, R29). -/
def State.tone (s : State) : Bool := s.st != 0

/-- The output `status` as the pair of codes (R7, R33, R34). -/
def State.status (s : State) : BitVec 2 × BitVec 3 := (s.mode.code, s.cause.code)

/-! ### Errors (spec/60_exceptions.md) -/

/-- `raise C` for a halting cause: `MODE <- HALT`, `CAUSE <- C`, and nothing else (R171). A next
state, not a fault (log 7). -/
def halt (c : Cause) (s : State) : Result := .next (s.setStatus .halt c)

/-- The machine with what the event reports to the host (R172, R176). -/
def State.setReport (s : State) (r : Option Report) : State := s.setIo { s.io with report := r }

/-- `raise UnknownOpcode(op, a)`: the report, and no other effect (R94, R172). -/
def reportUnknown (op a : Word) (s : State) : Result :=
  .next (s.setReport (some (.unknownOpcode op a)))

/-- The bounds check of R58: an instruction that touches `len` bytes from `I` on halts with
`MemoryOutOfBounds` and no other effect where the last address is above 0xFFF, computed without
wrap; else its result is `done`. `len = 0` touches nothing and cannot halt. -/
def withinMemory (len : Nat) (s done : State) : Result :=
  if 0 < len ∧ 0xFFF < s.i.toNat + len - 1 then halt .memoryOutOfBounds s else .next done

end Sys2Proof.Machine
end

