-- ==== Sys2Proof/Machine/Flags.lean ====
section
/-! DEFINITION. The values instructions write to `VF` as a flag (spec/10_state.md R22) and the order
of the two writes (spec/42_arithmetic_logic.md R121). The collision flag of `Dxyn` is in
Machine/Display.lean. -/

namespace Sys2Proof.Machine

/-- A flag value: 1 or 0 (R22). -/
def flagByte (c : Bool) : Byte := if c then 1 else 0

/-- Carry: the unbounded sum exceeds 255 (R120, R128). -/
def carryOut (a b : Byte) : Bool := a.toNat + b.toNat > 255

/-- Not-borrow of `a - b`: `a >= b`, unsigned (R120, R129, R131). -/
def noBorrow (a b : Byte) : Bool := b.toNat ≤ a.toNat

/-- The bit a right shift by one drops (R130). -/
def lowBit (a : Byte) : Bool := a.getLsbD 0

/-- The bit a left shift by one drops (R132). -/
def highBit (a : Byte) : Bool := a.getLsbD 7

/-- Write the result to `V[x]`, then the flag to `VF`: with `x = 0xF` the flag stands (R14, R121). -/
def State.setResultAndFlag (s : State) (x : Reg) (result : Byte) (flag : Bool) : State :=
  (s.setReg x result).setReg regF (flagByte flag)

end Sys2Proof.Machine
end

