-- ==== Sys2Proof/Machine/Arithmetic.lean ====
section
/-! DEFINITION. Load immediate, arithmetic, logic, shift and random (spec/42_arithmetic_logic.md).
8-bit unsigned arithmetic that wraps modulo 256 (R120); operands are read before any write (R14,
R121). None of these raises an exception. -/

namespace Sys2Proof.Machine

/-- `6xnn` LD Vx, nn (R122). -/
def execLdImm (x : Reg) (nn : Byte) (s : State) : Result := .next (s.setReg x nn)

/-- `7xnn` ADD Vx, nn (R123): no flag, even when the sum wraps. -/
def execAddImm (x : Reg) (nn : Byte) (s : State) : Result := .next (s.setReg x (s.reg x + nn))

/-- `8xy0` LD Vx, Vy (R124). -/
def execLdReg (x y : Reg) (s : State) : Result := .next (s.setReg x (s.reg y))

/-- `8xy1` OR Vx, Vy (R125): `VF` is not written (D9). -/
def execOrReg (x y : Reg) (s : State) : Result := .next (s.setReg x (s.reg x ||| s.reg y))

/-- `8xy2` AND Vx, Vy (R126): `VF` is not written (D9). -/
def execAndReg (x y : Reg) (s : State) : Result := .next (s.setReg x (s.reg x &&& s.reg y))

/-- `8xy3` XOR Vx, Vy (R127): `VF` is not written (D9). -/
def execXorReg (x y : Reg) (s : State) : Result := .next (s.setReg x (s.reg x ^^^ s.reg y))

/-- `8xy4` ADD Vx, Vy (R128): `VF` is the carry out; the old `VF` is not added in. -/
def execAddReg (x y : Reg) (s : State) : Result :=
  .next (s.setResultAndFlag x (s.reg x + s.reg y) (carryOut (s.reg x) (s.reg y)))

/-- `8xy5` SUB Vx, Vy (R129): `VF` is not-borrow of `V[x] - V[y]`. -/
def execSubReg (x y : Reg) (s : State) : Result :=
  .next (s.setResultAndFlag x (s.reg x - s.reg y) (noBorrow (s.reg x) (s.reg y)))

/-- `8xy6` SHR Vx (R130): logical, `V[y]` is not read (D6). -/
def execShr (x _y : Reg) (s : State) : Result :=
  .next (s.setResultAndFlag x (s.reg x >>> 1) (lowBit (s.reg x)))

/-- `8xy7` SUBN Vx, Vy (R131): `VF` is not-borrow of `V[y] - V[x]`. -/
def execSubnReg (x y : Reg) (s : State) : Result :=
  .next (s.setResultAndFlag x (s.reg y - s.reg x) (noBorrow (s.reg y) (s.reg x)))

/-- `8xyE` SHL Vx (R132): `V[y]` is not read (D6). -/
def execShl (x _y : Reg) (s : State) : Result :=
  .next (s.setResultAndFlag x (s.reg x <<< 1) (highBit (s.reg x)))

/-- `Cxnn` RND Vx, nn (R133): `rnd` is this cycle's input, under no law (D21). -/
def execRnd (x : Reg) (nn : Byte) (s : State) : Result := .next (s.setReg x (s.io.rnd &&& nn))

end Sys2Proof.Machine
end

