-- ==== Sys2Proof/Machine/Operands.lean ====
section
/-! DEFINITION. The operand forms of the instructions: zero-extended addresses, the one addressing
mode `I + k`, register ranges, low nibbles, glyph addresses and keys. -/

namespace Sys2Proof.Machine

/-- `zext_16(nnn)` (spec/30_encoding.md R73). -/
def addressOf (nnn : Addr) : Word := nnn.setWidth 16

/-- `I + k`: the address of the `k`-th byte an instruction touches, never wrapped (R146). -/
def State.effective (s : State) (k : Nat) : Nat := s.i.toNat + k

/-- `b[3:0]` as a number 0 to 15 (R142, R162). -/
def lowNibble (b : Byte) : Fin 16 := (b.extractLsb' 0 4).toFin

/-- The registers `V[0]` to `V[x]`, ascending (R144, R145). -/
def regsUpTo (x : Reg) : List Reg := (List.finRange 16).filter (· ≤ x)

/-- `FONT_BASE + 5 * d` (R142). -/
def glyphAddress (d : Fin 16) : Word :=
  BitVec.ofNat 16 (Config.fontBase.val + Config.glyphBytes * d.val)

/-- `nnn + V[0]`, computed without wrap (R103). -/
def State.indexedTarget (s : State) (nnn : Addr) : Nat := nnn.toNat + (s.reg 0).toNat

/-- `keys[k]`: key `k` is down in this cycle's sample (R13, R96). -/
def State.keyDown (s : State) (k : Fin 16) : Bool := s.io.keys.getLsbD k

/-- The least `k` with `keys[k] == 1`, if a key is down (R164). -/
def State.lowestKey (s : State) : Option (Fin 16) := (List.finRange 16).find? s.keyDown

end Sys2Proof.Machine
end

