-- ==== Sys2Proof/Machine/Control.lean ====
section
/-! DEFINITION. Control transfer (spec/41_control_flow.md). Every meaning of the package runs at the
"execute ins" line of spec/40_cycle.md R90: on entry `PC = a + 2` and `MODE = RUN`; what a rule does
not mention is unchanged. -/

namespace Sys2Proof.Machine

/-- `00EE` RET (R100): underflow halts; else pop into `PC`. The popped address is not checked
(D27). -/
def execRet (s : State) : Result :=
  if s.sp = 0 then halt .stackUnderflow s else .next (s.drop.setPC s.top)

/-- `1nnn` JP nnn (R101). -/
def execJp (nnn : Addr) (s : State) : Result := .next (s.setPC (addressOf nnn))

/-- `2nnn` CALL nnn (R102): overflow halts; else push the advanced `PC`, then jump. -/
def execCall (nnn : Addr) (s : State) : Result :=
  if s.sp = 16 then halt .stackOverflow s else .next ((s.push s.pc).setPC (addressOf nnn))

/-- `Bnnn` JP V0, nnn (R103): a target above 0xFFF halts. -/
def execJpV0 (nnn : Addr) (s : State) : Result :=
  if 0xFFF < s.indexedTarget nnn then halt .memoryOutOfBounds s
  else .next (s.setPC (BitVec.ofNat 16 (s.indexedTarget nnn)))

/-- `3xnn` SE Vx, nn (R104). -/
def execSeImm (x : Reg) (nn : Byte) (s : State) : Result := .next (s.skipIf (s.reg x == nn))

/-- `4xnn` SNE Vx, nn (R105). -/
def execSneImm (x : Reg) (nn : Byte) (s : State) : Result := .next (s.skipIf (s.reg x != nn))

/-- `5xy0` SE Vx, Vy (R106). -/
def execSeReg (x y : Reg) (s : State) : Result := .next (s.skipIf (s.reg x == s.reg y))

/-- `9xy0` SNE Vx, Vy (R107). -/
def execSneReg (x y : Reg) (s : State) : Result := .next (s.skipIf (s.reg x != s.reg y))

end Sys2Proof.Machine
end

