-- ==== Sys2Proof/Machine/Display.lean ====
section
/-! DEFINITION. The display and the sprite collision detector (spec/44_display.md). -/

namespace Sys2Proof.Machine

/-- `00E0` CLS (R150). -/
def execCls (s : State) : Result := .next (s.setFB Framebuffer.clear)

/-- A framebuffer being drawn on, and the collision detector's `hit` so far (R152, R153). -/
abbrev Canvas := Framebuffer × Bool

/-- One sprite bit onto the pixel at (`px`, `py`): a 1 bit inverts the pixel, and hits if it was on;
a 0 bit leaves it alone (R151, R152). -/
def drawPixel (px : Fin 64) (py : Fin 32) (bit : Bool) (c : Canvas) : Canvas :=
  if bit then (c.1.flip px py, c.2 || c.1.pixel px py) else c

/-- The sprite columns of a list, of a row `b` at screen row `py`: bit 7 is the leftmost pixel and
columns wrap modulo 64 (R151, R152). -/
def drawColumns (b : Byte) (x0 : Nat) (py : Fin 32) : List Nat → Canvas → Canvas
  | [], c => c
  | k :: rest, c =>
    drawColumns b x0 py rest (drawPixel (Fin.ofNat 64 (x0 + k)) py (b.getLsbD (7 - k)) c)

/-- One sprite row: its eight columns (R151, R152). -/
def drawRow (b : Byte) (x0 : Nat) (py : Fin 32) (c : Canvas) : Canvas :=
  drawColumns b x0 py (List.range 8) c

/-- The sprite rows downward from screen row `y`, which wraps modulo 32 (R151, R152). -/
def drawRows (x0 : Nat) : Nat → List Byte → Canvas → Canvas
  | _, [], c => c
  | y, b :: bs, c => drawRows x0 (y + 1) bs (drawRow b x0 (Fin.ofNat 32 y) c)

/-- The `n` bytes of memory from `I` on: the rows of a sprite (R151). -/
def State.sprite (s : State) (n : Nat) : List Byte :=
  (List.range n).map (fun r => s.readByte (s.effective r))

/-- A sprite drawn with its top left corner at (`V[x] mod 64`, `V[y] mod 32`): the new framebuffer
and `hit`, which starts at 0 (R152, R153). -/
def State.drawn (s : State) (x y : Reg) (n : Nat) : Canvas :=
  drawRows ((s.reg x).toNat % 64) ((s.reg y).toNat % 32) (s.sprite n) (s.fb, false)

/-- `Dxyn` DRW Vx, Vy, n (R152): the coordinates are read before `VF` is written. -/
def execDrw (x y : Reg) (n : Nat) (s : State) : Result :=
  withinMemory n s ((s.setFB (s.drawn x y n).1).setReg regF (flagByte (s.drawn x y n).2))

end Sys2Proof.Machine
end

