-- ==== Sys2Proof/Machine/Index.lean ====
section
/-! DEFINITION. The index register and memory transfers (spec/43_index_memory.md). One addressing
mode, `I + k`; the whole range is checked before anything is accessed; `I` is not modified by an
access (R58, R146). -/

namespace Sys2Proof.Machine

/-- `Annn` LD I, nnn (R140). -/
def execLdI (nnn : Addr) (s : State) : Result := .next (s.setI (addressOf nnn))

/-- `Fx1E` ADD I, Vx (R141): modulo 65536, `VF` is not written (D7). -/
def execAddI (x : Reg) (s : State) : Result := .next (s.setI (s.i + (s.reg x).setWidth 16))

/-- `Fx29` LD F, Vx (R142): the glyph of the low nibble of `V[x]`; memory is not read. -/
def execLdF (x : Reg) (s : State) : Result :=
  .next (s.setI (glyphAddress (lowNibble (s.reg x))))

/-- The hundreds, tens and ones of a byte (R143). -/
def decimalDigits (b : Byte) : List Byte :=
  [BitVec.ofNat 8 (b.toNat / 100), BitVec.ofNat 8 (b.toNat / 10 % 10), BitVec.ofNat 8 (b.toNat % 10)]

/-- `Fx33` LD B, Vx (R143): the hundreds at `I`, the tens at `I + 1`, the ones at `I + 2`. -/
def execLdB (x : Reg) (s : State) : Result :=
  withinMemory 3 s (s.setMem (s.mem.load (s.effective 0) (decimalDigits (s.reg x))))

/-- `Fx55` LD [I], Vx (R144): `V[0]` to `V[x]` inclusive to ascending addresses from `I`. -/
def execStoreRegs (x : Reg) (s : State) : Result :=
  withinMemory (x.val + 1) s (s.setMem (s.mem.load (s.effective 0) ((regsUpTo x).map s.reg)))

/-- The registers of a list loaded one after another, `V[k]` from the address `base + k`. -/
def State.loadRegsFrom (s : State) (base : Nat) : List Reg → State
  | [] => s
  | k :: rest => (s.setReg k (s.readByte (base + k.val))).loadRegsFrom base rest

/-- `Fx65` LD Vx, [I] (R145): `V[0]` to `V[x]` inclusive from ascending addresses from `I`. -/
def execLoadRegs (x : Reg) (s : State) : Result :=
  withinMemory (x.val + 1) s (s.loadRegsFrom (s.effective 0) (regsUpTo x))

end Sys2Proof.Machine
end

