-- ==== Sys2Proof/Machine/Keypad.lean ====
section
/-! DEFINITION. Keypad and timer instructions (spec/45_keypad_timers.md). The keypad sample is an
input of the cycle (R96). None of these raises an exception. -/

namespace Sys2Proof.Machine

/-- `Ex9E` SKP Vx (R160): the key is the low nibble of `V[x]` (R162). -/
def execSkp (x : Reg) (s : State) : Result := .next (s.skipIf (s.keyDown (lowNibble (s.reg x))))

/-- `ExA1` SKNP Vx (R161). -/
def execSknp (x : Reg) (s : State) : Result := .next (s.skipIf (!s.keyDown (lowNibble (s.reg x))))

/-- `Fx07` LD Vx, DT (R163). -/
def execLdVxDT (x : Reg) (s : State) : Result := .next (s.setReg x s.dt)

/-- The wait of R164: `PC <- a` and `MODE <- WAIT_KEY`; on entry `PC = a + 2`, so `a` is `PC - 2`.
Log 14. -/
def State.holdForKey (s : State) : State := (s.setPC (s.pc - 2)).setStatus .waitKey s.cause

/-- `Fx0A` LD Vx, K (R164): level-sensitive, the lowest key down (D11). -/
def execLdVxK (x : Reg) (s : State) : Result :=
  .next (match s.lowestKey with
    | none => s.holdForKey
    | some k => s.setReg x (BitVec.ofNat 8 k.val))

/-- `Fx15` LD DT, Vx (R165). -/
def execLdDTVx (x : Reg) (s : State) : Result := .next (s.setDT (s.reg x))

/-- `Fx18` LD ST, Vx (R166). -/
def execLdSTVx (x : Reg) (s : State) : Result := .next (s.setST (s.reg x))

end Sys2Proof.Machine
end

