-- ==== Sys2Proof/Machine/Cycle.lean ====
section
/-! DEFINITION. The `CYCLE` event (spec/40_cycle.md): fetch, advance, decode, execute. -/

namespace Sys2Proof.Machine

/-- The machine as a cycle begins: this cycle's samples at its inputs, nothing reported yet, and the
boot sequence over (R5, R96). Only the model's own record changes. -/
def State.beginCycle (s : State) (keys : BitVec 16) (rnd : Byte) : State :=
  s.setIo { s.io with keys := keys, rnd := rnd, report := none, boot := .cycling }

/-- The instruction word at address `a`: two byte reads, the first the high byte (R52, R53, R91). -/
def State.wordAt (s : State) (a : Nat) : Word := wordOfBytes (s.readByte a) (s.readByte (a + 1))

/-- `PC <- a + 2` and `MODE <- RUN`, after a successful fetch and before execute (R90, R92, R95). -/
def State.advance (s : State) : State := (s.setPC (s.pc + 2)).setStatus .run s.cause

/-- What a cycle does after its fetch: the decoded instruction's meaning, or the report of an unknown
opcode (R93, R94). -/
def decodeAndExecute (s : State) : Result :=
  match decodeWord (s.wordAt s.pc.toNat) with
  | some i => exec i s.advance
  | none => reportUnknown (s.wordAt s.pc.toNat) s.pc s.advance

/-- `CYCLE(keys, rnd)` (R90): a halted core ignores it; a fetch past 0xFFE halts with `PC` unchanged
(R91); else decode and execute. -/
def cycle (keys : BitVec 16) (rnd : Byte) (s : State) : Result :=
  let s := s.beginCycle keys rnd
  if s.mode = .halt then .next s
  else if 0xFFE < s.pc.toNat then halt .memoryOutOfBounds s
  else decodeAndExecute s

end Sys2Proof.Machine
end

