-- ==== Sys2Proof/Machine/Events.lean ====
section
/-! DEFINITION. The four events (spec/00_scope.md R5) and how a step takes the next one. -/

namespace Sys2Proof.Machine

/-- One timer at a `TICK`: down by one, not below 0 (spec/60_exceptions.md R185). -/
def timerDown (b : Byte) : Byte := if b = 0 then 0 else b - 1

/-- The `TICK` event on the core: both timers, in every `MODE`, and nothing else (R185). -/
def State.tick (s : State) : State := (s.setDT (timerDown s.dt)).setST (timerDown s.st)

/-- One timer after `n` ticks. -/
def timerAfter (n : Nat) (b : Byte) : Byte := BitVec.ofNat 8 (b.toNat - n)

/-- `n` `TICK` events in a row, written without recursion so that it evaluates for a free `n`. -/
def State.ticks (s : State) (n : Nat) : State :=
  (s.setDT (timerAfter n s.dt)).setST (timerAfter n s.st)

/-- The `RESET` event (spec/70_reset_and_hazards.md R200): every piece of state, whatever it was.
The events still pending and the counter of draws belong to the outside world and stay. Log 20. -/
def resetEvent (s : State) : State :=
  State.reset.setIo { Io.reset with pending := s.io.pending, draws := s.io.draws }

/-- `LOAD(bytes, origin)` (spec/20_memory.md R60): at 0x200, once, between `RESET` and the first
`CYCLE`, else refused (D33); all or nothing, and one that does not fit is answered `RomTooLarge` with
the core unchanged (R176) and was the one `LOAD` all the same. Log 9. -/
def hostLoad (bytes : List Byte) (origin : Nat) (s : State) : Result :=
  if s.io.boot ≠ .afterReset ∨ origin ≠ Config.progOrigin then .refused .loadOutsideBoot
  else if Config.memSize < origin + bytes.length then .next (s.setIo
    { s.io with report := some .romTooLarge, boot := .loadFailed })
  else .next ((s.setMem (s.mem.load origin bytes)).setIo
    { s.io with report := none, boot := .loaded })

/-- The launch state of an image: the reset state with the image at 0x200 (R202). A program whose
image does not fit has none. -/
def launch (image : List Byte) : Result := hostLoad image Config.progOrigin State.reset

/-- The `CYCLE` event as the host raises it: after a `LOAD` that failed "the core must not be cycled"
(R202), else the cycle of R90. Log 18. -/
def hostCycle (keys : BitVec 16) (rnd : Byte) (s : State) : Result :=
  if s.io.boot = .loadFailed then .refused .cycleAfterFailedLoad else cycle keys rnd s

/-- One event, whole (R5). -/
def event (e : Event) (s : State) : Result :=
  match e with
  | .reset => .next (resetEvent s)
  | .load bytes origin => hostLoad bytes origin s
  | .cycle keys rnd => hostCycle keys rnd s
  | .tick => .next (s.tick.setReport none)

/-- The free part of the schedule: some number of `TICK`s and then one `CYCLE` on free inputs, so
that every interleaving of R202 (3) is some run. Logs 1, 2, 3. -/
def freeRun (s : State) : Result :=
  hostCycle (Config.freeKeys s.io.draws) (Config.freeRnd s.io.draws)
    ((s.ticks (Config.freeTicks s.io.draws)).setIo { s.io with draws := s.io.draws + 1 })

/-- Take the oldest pending event; when none is pending, the free schedule. -/
def nextEvent (s : State) : Result :=
  match s.io.pending with
  | e :: rest => event e (s.setIo { s.io with pending := rest })
  | [] => freeRun s

/-- The address the next fetch reads, or 0x200 where `PC` is past the last fetch address. -/
def fetchAddress (s : State) : Word := if 0xFFE < s.pc.toNat then 0x200 else s.pc

/-- The machine about to fetch the word `op`: the word in memory at the fetch address, high byte
first (R52), no event pending before the fetch, a failed load undone, and the core not halted.
Log 10. -/
def placeWord (s : State) (op : Word) : State :=
  let a := fetchAddress s
  let mem := s.mem.load a.toNat (bytesOfWord op)
  let boot := if s.io.boot = .loadFailed then .loaded else s.io.boot
  let s := ((s.setMem mem).setPC a).setIo { s.io with pending := [], boot := boot }
  if s.mode = .halt then s.setStatus .run .none else s

end Sys2Proof.Machine
end

