-- ==== Sys2Proof/Machine/Step.lean ====
section
/-! DEFINITION. The step of the machine, and placing an instruction where it fetches next. -/

namespace Sys2Proof.Machine

/-- One step: the oldest pending event, or, when none is pending, some free number of `TICK`s and
then one `CYCLE` (spec/00_scope.md R5, spec/70_reset_and_hazards.md R202, R207). Log 1. -/
def step (s : State) : Host.Outcome State Fault Refusal := nextEvent s

/-- The state with the instruction whose bits are `w` stored where the next step fetches. Log 10. -/
def State.withFetchWord (s : State) (nbits w : Nat) : State :=
  placeWord s (BitVec.ofNat 16 (w % 2 ^ nbits))

end Sys2Proof.Machine
end

