-- ==== Sys2Proof/Safety.lean ====
section
/-! DEFINITION. The terms claims are stated in: the invariant of the machine, what an instruction may
write, when it halts, where a sprite's pixels lie, and how a run ends. -/

namespace Sys2Proof.Machine

/-! ### The invariant -/

/-- What the rules say of every state of the machine, and every step keeps. -/
structure State.Inv (s : State) : Prop where
  /-- Memory is in its canonical form and holds nothing at or above 4096 (R30, log 11). -/
  memCanonical : s.mem.wf = true
  /-- "The values `PC` can hold: any of 0 to 0x1002" (R24). -/
  pcInRange : s.pc.toNat ≤ 0x1002
  /-- A pushed return address is at most 0x1000 (R24, R100). -/
  stackInRange : ∀ k : Fin 16, (s.stackEntry k).toNat ≤ 0x1000
  /-- `CAUSE` is `NONE` exactly when the core is not halted (R34). -/
  causeOfHalt : s.mode = .halt ↔ s.cause ≠ .none
  /-- `RomTooLarge` is never written to `CAUSE` (R34). -/
  causeNotRom : s.cause ≠ .romTooLarge
  /-- `UnknownOpcode` is never written to `CAUSE` (R34). -/
  causeNotOpcode : s.cause ≠ .unknownOpcode
  /-- In `WAIT_KEY` the `PC` still points at the `Fx0A` (R95). -/
  waitingAtKeyWait : s.mode = .waitKey → s.io.boot = .cycling ∧ s.pc.toNat ≤ 0xFFE ∧
    ∃ x, decodeWord (s.wordAt s.pc.toNat) = some (.ldVxK x)

/-! ### What an instruction may write -/

/-- The general registers an instruction may write: its destination, the range of `Fx65`, and `VF`
where it is the flag (R21). -/
def writesReg : Instr → Reg → Bool
  | .ldImm x _, r | .addImm x _, r | .ldReg x _, r | .orReg x _, r | .andReg x _, r
  | .xorReg x _, r | .rnd x _, r | .ldVxDT x, r | .ldVxK x, r => r == x
  | .addReg x _, r | .subReg x _, r | .shr x _, r | .subnReg x _, r | .shl x _, r =>
    r == x || r == regF
  | .drw _ _ _, r => r == regF
  | .loadRegs x, r => decide (r ≤ x)
  | .cls, _ | .ret, _ | .jp _, _ | .call _, _ | .seImm _ _, _ | .sneImm _ _, _ | .seReg _ _, _
  | .sneReg _ _, _ | .ldI _, _ | .jpV0 _, _ | .skp _, _ | .sknp _, _ | .ldDTVx _, _
  | .ldSTVx _, _ | .addI _, _ | .ldF _, _ | .ldB _, _ | .storeRegs _, _ => false

/-- The instructions that write `VF` as a flag (R22). -/
def writesFlag : Instr → Bool
  | .addReg _ _ | .subReg _ _ | .shr _ _ | .subnReg _ _ | .shl _ _ | .drw _ _ _ => true
  | .cls | .ret | .jp _ | .call _ | .seImm _ _ | .sneImm _ _ | .seReg _ _ | .sneReg _ _
  | .ldImm _ _ | .addImm _ _ | .ldReg _ _ | .orReg _ _ | .andReg _ _ | .xorReg _ _ | .ldI _
  | .jpV0 _ | .rnd _ _ | .skp _ | .sknp _ | .ldVxDT _ | .ldVxK _ | .ldDTVx _ | .ldSTVx _
  | .addI _ | .ldF _ | .ldB _ | .storeRegs _ | .loadRegs _ => false

/-- How many bytes from `I` on an instruction stores (R50, R143, R144). -/
def storeLength : Instr → Nat
  | .ldB _ => 3
  | .storeRegs x => x.val + 1
  | .cls | .ret | .jp _ | .call _ | .seImm _ _ | .sneImm _ _ | .seReg _ _ | .sneReg _ _
  | .ldImm _ _ | .addImm _ _ | .ldReg _ _ | .orReg _ _ | .andReg _ _ | .xorReg _ _
  | .addReg _ _ | .subReg _ _ | .shr _ _ | .subnReg _ _ | .shl _ _ | .ldI _ | .jpV0 _
  | .rnd _ _ | .drw _ _ _ | .skp _ | .sknp _ | .ldVxDT _ | .ldVxK _ | .ldDTVx _ | .ldSTVx _
  | .addI _ | .ldF _ | .loadRegs _ => 0

/-- The instruction stores to address `a`: one of the bytes from the effective address 0 up to, and
not including, the effective address `storeLength` (R146). -/
def storesTo (i : Instr) (s : State) (a : Nat) : Prop :=
  s.effective 0 ≤ a ∧ a < s.effective (storeLength i)

/-! ### When an instruction halts -/

/-- The condition of a data access of `len` bytes from `I` on (R58). -/
def outOfMemory (s : State) (len : Nat) : Option Cause :=
  if 0 < len ∧ 0x1000 < s.i.toNat + len then some .memoryOutOfBounds else none

/-- The cause an instruction raises in a state, if any: the table of R170. -/
def haltCause (i : Instr) (s : State) : Option Cause :=
  match i with
  | .ret => if s.sp.val = 0 then some .stackUnderflow else none
  | .call _ => if s.sp.val = 16 then some .stackOverflow else none
  | .jpV0 nnn => if 0x1000 ≤ nnn.toNat + (s.reg 0).toNat then some .memoryOutOfBounds else none
  | .drw _ _ n => outOfMemory s n
  | .ldB _ => outOfMemory s 3
  | .storeRegs x => outOfMemory s (x.val + 1)
  | .loadRegs x => outOfMemory s (x.val + 1)
  | .cls | .jp _ | .seImm _ _ | .sneImm _ _ | .seReg _ _ | .sneReg _ _
  | .ldImm _ _ | .addImm _ _ | .ldReg _ _ | .orReg _ _ | .andReg _ _ | .xorReg _ _
  | .addReg _ _ | .subReg _ _ | .shr _ _ | .subnReg _ _ | .shl _ _ | .ldI _
  | .rnd _ _ | .skp _ | .sknp _ | .ldVxDT _ | .ldVxK _ | .ldDTVx _ | .ldSTVx _
  | .addI _ | .ldF _ => none

/-! ### Where a sprite lies -/

/-- The sprite of `n` rows at `I`, drawn at (`V[x] mod 64`, `V[y] mod 32`), has a 1 bit on the
pixel (`px`, `py`), after wrapping on both axes (R151 to R153). -/
def State.spriteCovers (s : State) (x y : Reg) (n : Nat) (px : Fin 64) (py : Fin 32) : Bool :=
  let column := (px.val + 64 - (s.reg x).toNat % 64) % 64
  let row := (py.val + 32 - (s.reg y).toNat % 32) % 32
  decide (column < 8) && decide (row < n) &&
    (s.readByte (s.i.toNat + row)).getLsbD (7 - column)

/-! ### The end of a run (spec/70_reset_and_hazards.md R206) -/

/-- The faulty end: the core has halted. Never a final state of a correct run (U7). -/
def State.faulted (s : State) : Prop := s.mode = .halt

/-- The end of a run: the instruction at `PC` is `1nnn` with `nnn = PC` (R206, D36). -/
def State.selfJump (s : State) : Prop :=
  s.mode ≠ .halt ∧ s.pc.toNat ≤ 0xFFE ∧
    ∃ nnn : Addr, decodeWord (s.wordAt s.pc.toNat) = some (.jp nnn) ∧ nnn.toNat = s.pc.toNat

/-- The two states agree on everything but the timers, `MODE` and the model's own record. -/
def State.sameButTimers (s t : State) : Prop :=
  t.v = s.v ∧ t.i = s.i ∧ t.pc = s.pc ∧ t.stack = s.stack ∧ t.sp = s.sp ∧ t.mem = s.mem ∧
    t.fb = s.fb ∧ t.cause = s.cause

end Sys2Proof.Machine
end

