-- ==== Sys2Proof/Certificates/Slice0/Obligations.lean ====
section
/-! DEFINITION. The statements about the model. A statement that rests on a decision the spec marks as
its own, or on a choice of the model's, says so in its docstring. -/

open Sys2Proof Sys2Proof.Machine

/-! ### Encoding -/

/-- Words written out from the digits of R71 and R74 decode to the instruction they stand for, one or
more of every family; the words of N1's list rest on digits the spec supplies from general knowledge
(log 16). -/
def Obligations.OpcodeWordsDecodeAsWritten : Prop :=
  decodeTableWord 16 0x00E0 = some .cls ∧ decodeTableWord 16 0x00EE = some .ret ∧
  decodeTableWord 16 0x1200 = some (.jp 0x200) ∧ decodeTableWord 16 0x2300 = some (.call 0x300) ∧
  decodeTableWord 16 0x3A42 = some (.seImm 10 0x42) ∧
  decodeTableWord 16 0x4A42 = some (.sneImm 10 0x42) ∧
  decodeTableWord 16 0x5AB0 = some (.seReg 10 11) ∧
  decodeTableWord 16 0x6005 = some (.ldImm 0 0x05) ∧
  decodeTableWord 16 0x7003 = some (.addImm 0 0x03) ∧
  decodeTableWord 16 0x8F14 = some (.addReg 15 1) ∧ decodeTableWord 16 0x9AB0 = some (.sneReg 10 11) ∧
  decodeTableWord 16 0xA123 = some (.ldI 0x123) ∧ decodeTableWord 16 0xBFFE = some (.jpV0 0xFFE) ∧
  decodeTableWord 16 0xC30F = some (.rnd 3 0x0F) ∧ decodeTableWord 16 0xD345 = some (.drw 3 4 5) ∧
  decodeTableWord 16 0xE59E = some (.skp 5) ∧ decodeTableWord 16 0xF155 = some (.storeRegs 1) ∧
  decodeTableWord 16 0x0000 = none

/-- Every well-formed instruction decodes from its own word, with every operand at every value. -/
def Obligations.DecodeOfEncodeIsInstruction : Prop :=
  ∀ i : Instr, i.wellFormed = true → decodeWord (encode i) = some i

/-- A word that decodes is the encoding of what it decodes to: no bit is dropped, the ignored field
of the shifts included, and the instruction is well-formed. -/
def Obligations.EncodeOfDecodeIsWord : Prop :=
  ∀ (op : Word) (i : Instr), decodeWord op = some i → i.wellFormed = true ∧ encode i = op

/-- The decode procedure of R75 by family and sub-digits: exactly these words are instructions. That
sub-opcode bits must match exactly and that `0nnn` is unknown are the spec's own decisions (D16, D17);
the digits of families 8, E and F that the source does not give are general knowledge (log 16). -/
def Obligations.DefinedWordsByFamily : Prop :=
  ∀ op : Word, (decodeWord op).isSome = true ↔
    op = 0x00E0 ∨ op = 0x00EE ∨ op.toNat / 4096 ∈ [1, 2, 3, 4, 6, 7, 0xA, 0xB, 0xC, 0xD] ∨
    (op.toNat / 4096 ∈ [5, 9] ∧ op.toNat % 16 = 0) ∨
    (op.toNat / 4096 = 8 ∧ op.toNat % 16 ∈ [0, 1, 2, 3, 4, 5, 6, 7, 0xE]) ∨
    (op.toNat / 4096 = 0xE ∧ op.toNat % 256 ∈ [0x9E, 0xA1]) ∨
    (op.toNat / 4096 = 0xF ∧
      op.toNat % 256 ∈ [0x07, 0x0A, 0x15, 0x18, 0x1E, 0x29, 0x33, 0x55, 0x65])

/-- The patterns of R74 do not overlap, so a decoder may try them in any order. -/
def Obligations.OpcodePatternsDoNotOverlap : Prop :=
  opcodeRows.Pairwise (fun r r' => ∀ op : Word, ¬ (r.matches op = true ∧ r'.matches op = true))

/-! ### The cycle -/

/-- A step runs the decoded instruction. With a `CYCLE` pending, or with nothing pending (then after
some free number of ticks, on free inputs), a core that is not halted executes the instruction at
`PC` in the state with `PC` advanced by 2 and `MODE = RUN`, unless a `LOAD` has failed (R202; log 18).
How a step takes its events is the model's choice (logs 1, 2, 3). -/
def Obligations.StepRunsDecodedInstruction : Prop :=
  ∀ (s : State) (i : Instr), s.io.boot ≠ .loadFailed → s.mode ≠ .halt → s.pc.toNat ≤ 0xFFE →
    decodeWord (s.wordAt s.pc.toNat) = some i →
    (∀ keys rnd rest, s.io.pending = .cycle keys rnd :: rest →
      step s = exec i { s with
        pc := s.pc + 2
        mode := .run
        io := { s.io with
          keys := keys, rnd := rnd, report := none, pending := rest, boot := .cycling } }) ∧
    (s.io.pending = [] →
      step s = exec i { s with
        dt := BitVec.ofNat 8 (s.dt.toNat - Config.freeTicks s.io.draws)
        st := BitVec.ofNat 8 (s.st.toNat - Config.freeTicks s.io.draws)
        pc := s.pc + 2
        mode := .run
        io := { s.io with
          keys := Config.freeKeys s.io.draws, rnd := Config.freeRnd s.io.draws, report := none
          draws := s.io.draws + 1, boot := .cycling } })

/-- A step takes the oldest pending event and leaves the others pending. That events queue this way is
the model's choice (log 1). -/
def Obligations.StepTakesOldestEvent : Prop :=
  ∀ (s : State) (e : Event) (rest : List Event), s.io.pending = e :: rest →
    step s = event e { s with io := { s.io with pending := rest } }

/-- R94: an unknown opcode is reported with its word and address, and is otherwise a no-op: `PC` is
at `a + 2`, `MODE` is `RUN`, nothing else of the core changes, and the next cycle fetches at
`a + 2`. -/
def Obligations.UnknownOpcodeIsReportedNoOp : Prop :=
  ∀ (s : State) (keys : BitVec 16) (rnd : Byte), s.mode ≠ .halt → s.pc.toNat ≤ 0xFFE →
    decodeWord (s.wordAt s.pc.toNat) = none →
    ∃ t, cycle keys rnd s = .next t ∧
      t.io.report = some (.unknownOpcode (s.wordAt s.pc.toNat) s.pc) ∧
      t = { s with pc := s.pc + 2, mode := .run, io := t.io } ∧
      t.pc.toNat = s.pc.toNat + 2

/-- A fetch with `PC` above 0xFFE halts with `MemoryOutOfBounds` and leaves `PC` and everything else
of the core unchanged; nothing is reported. That `PC` stays unadvanced is the spec's own decision
(D14). -/
def Obligations.FetchPastEndHalts : Prop :=
  ∀ (s : State) (keys : BitVec 16) (rnd : Byte), s.mode ≠ .halt → 0xFFE < s.pc.toNat →
    ∃ t, cycle keys rnd s = .next t ∧ t.io.report = none ∧
      t = { s with mode := .halt, cause := .memoryOutOfBounds, io := t.io }

/-- Only `RESET` leaves `HALT`: every other event the machine takes in `HALT` leaves `MODE`, `CAUSE`,
the registers, the stack and the framebuffer as they are, and a `CYCLE` changes nothing of the core
and reports nothing; the spec's own decision (D24). -/
def Obligations.OnlyResetLeavesHalt : Prop :=
  ∀ (e : Event) (s t : State), s.mode = .halt → e ≠ .reset → event e s = .next t →
    t.mode = .halt ∧ t.cause = s.cause ∧ t.v = s.v ∧ t.i = s.i ∧ t.pc = s.pc ∧
      t.stack = s.stack ∧ t.sp = s.sp ∧ t.fb = s.fb ∧
      (∀ keys rnd, e = .cycle keys rnd → t = { s with io := t.io } ∧ t.io.report = none)

/-- The fetch is big-endian: the byte at the lower address is the high byte of the word, at even and
odd addresses alike. -/
def Obligations.FetchIsBigEndian : Prop :=
  ∀ (s : State) (a : Nat),
    (s.wordAt a).toNat = 256 * (s.readByte a).toNat + (s.readByte (a + 1)).toNat

/-- A store is seen by the next fetch: `Fx55` that writes `V[0]`, `V[1]` at the address of the next
instruction makes them the two bytes of the next instruction word, `V[0]` the high one, and when that
word is an instruction the next cycle executes it. The range check and the unchanged `I` are the
spec's own decisions (D12, D13). -/
def Obligations.StoreIsSeenByNextFetch : Prop :=
  ∀ (x : Reg) (s : State), s.mode ≠ .halt → 1 ≤ x.val → s.i = s.pc → s.i.toNat + x.val ≤ 0xFFF →
    ∃ t, exec (.storeRegs x) s = .next t ∧ t.pc = s.pc ∧
      (t.wordAt t.pc.toNat).toNat = 256 * (s.reg 0).toNat + (s.reg 1).toNat ∧
      ∀ (i : Instr) (keys : BitVec 16) (rnd : Byte),
        decodeWord (BitVec.ofNat 16 (256 * (s.reg 0).toNat + (s.reg 1).toNat)) = some i →
        cycle keys rnd t = exec i { t with
          pc := t.pc + 2
          mode := .run
          io := { t.io with keys := keys, rnd := rnd, report := none, boot := .cycling } }

/-! ### Invariants -/

/-- The machine right after reset meets the invariant. `MODE = RUN` and `CAUSE = NONE` at reset are the
spec's own decision (D28; log 6); the canonical form of memory and the record of the boot sequence in
the invariant are the model's choice (logs 9, 11). -/
def Obligations.ResetMeetsInvariant : Prop := State.reset.Inv

/-- Every step keeps the invariant: memory stays canonical and inside 4096 bytes, `PC` within 0 to
0x1002, return addresses within 0 to 0x1000, `CAUSE` is `NONE` exactly outside `HALT` and never one
of the two causes that do not halt, and a waiting core points at its `Fx0A` with the boot sequence
over. The canonical form of memory and the record of the boot sequence are the model's (logs 9, 11). -/
def Obligations.StepKeepsInvariant : Prop :=
  ∀ s t : State, s.Inv → step s = .next t → t.Inv

/-! ### Whole-machine rules over all instructions -/

/-- When an instruction halts and what it leaves: where the table of R170 gives a cause, `MODE` and
`CAUSE` are written and nothing else; where it gives none, the instruction completes with a next
next state that is not halted and keeps `CAUSE`. The output `status` shows a halt as the pair of codes
of the table. That data accesses are checked as a whole and halt without partial effect, and the
numbers of the codes, are the spec's own decisions (D13, D14, D25). -/
def Obligations.HaltsExactlyWhenSpecSays : Prop :=
  ∀ (i : Instr) (s : State), s.mode = .run →
    (∀ c, haltCause i s = some c → ∃ t, exec i s = .next t ∧
      t = { s with mode := .halt, cause := c } ∧
      ((c = .stackOverflow ∧ t.status = (2, 3)) ∨ (c = .stackUnderflow ∧ t.status = (2, 4)) ∨
        (c = .memoryOutOfBounds ∧ t.status = (2, 5)))) ∧
    (haltCause i s = none → ∃ t, exec i s = .next t ∧ t.mode ≠ .halt ∧ t.cause = s.cause)

/-- `MODE` after an instruction: `HALT` exactly when it has a cause; `WAIT_KEY`, with `PC` back at its
own address, when it is an `Fx0A` that finds no key down; `RUN` in every other case. That the wait
tests the level of the keys is the spec's own decision (D11); that the address is `PC - 2` is read
from R90 (log 14); halting without partial effect is D13 and D14. -/
def Obligations.ModeAfterInstruction : Prop :=
  ∀ (i : Instr) (s t : State), s.mode = .run → exec i s = .next t →
    (t.mode = .halt ↔ (haltCause i s).isSome = true) ∧
    ((∃ x, i = .ldVxK x) → s.io.keys = 0 → t.mode = .waitKey ∧ t.pc = s.pc - 2) ∧
    (haltCause i s = none → (∀ x, i ≠ .ldVxK x) ∨ s.io.keys ≠ 0 → t.mode = .run)

/-- Frame of the general registers: an instruction leaves every register unchanged except its
destination, the range of `Fx65`, and `VF` where R22 makes it the flag. That the logic forms and
`Fx1E` leave `VF` alone is the spec's own decision (D7, D9). -/
def Obligations.FrameOfRegisters : Prop :=
  ∀ (i : Instr) (s t : State) (r : Reg), exec i s = .next t → writesReg i r = false →
    t.reg r = s.reg r

/-- The instructions that write `VF` as a flag always write it, to 0 or to 1, when they do not halt. -/
def Obligations.FlagInstructionsWriteZeroOrOne : Prop :=
  ∀ (i : Instr) (s : State), writesFlag i = true → haltCause i s = none →
    ∃ t, exec i s = .next t ∧ (t.reg 15 = 0 ∨ t.reg 15 = 1)

/-- Frame of memory: every byte outside the ones `Fx33` and `Fx55` store, from the effective address
of `I` on, reads as before; every other instruction leaves every byte as it was. -/
def Obligations.FrameOfMemory : Prop :=
  ∀ (i : Instr) (s t : State), exec i s = .next t →
    (∀ a, ¬ storesTo i s a → t.readByte a = s.readByte a) ∧
    (storeLength i = 0 → t.mem = s.mem)

/-- `I` is written by `Annn`, `Fx1E` and `Fx29` only. That `Fx55` and `Fx65` leave `I` alone is the
spec's own decision (D12). -/
def Obligations.FrameOfIndexRegister : Prop :=
  ∀ (i : Instr) (s t : State), exec i s = .next t →
    (∀ nnn, i ≠ .ldI nnn) → (∀ x, i ≠ .addI x) → (∀ x, i ≠ .ldF x) → t.i = s.i

/-- The stack and its pointer are changed by `2nnn` and `00EE` only; a call changes the one entry it
pushes and a return changes no entry, which is the spec's own decision (D32; log 6). -/
def Obligations.FrameOfStack : Prop :=
  ∀ (i : Instr) (s t : State), exec i s = .next t →
    ((∀ nnn, i ≠ .call nnn) → t.stack = s.stack) ∧
    ((∀ nnn, i ≠ .call nnn) → i ≠ .ret → t.sp = s.sp) ∧
    (∀ k : Fin 16, k.val ≠ s.sp.val → t.stackEntry k = s.stackEntry k)

/-- No instruction decrements a timer: `DT` is written by `Fx15` and `ST` by `Fx18` only. And none
touches the model's own record: its inputs, its report, the pending events (logs 1, 2, 8). -/
def Obligations.FrameOfTimers : Prop :=
  ∀ (i : Instr) (s t : State), exec i s = .next t →
    ((∀ x, i ≠ .ldDTVx x) → t.dt = s.dt) ∧ ((∀ x, i ≠ .ldSTVx x) → t.st = s.st) ∧ t.io = s.io

/-- The framebuffer is mutated only by the draw opcode and the clear-screen opcode. -/
def Obligations.FrameOfFramebuffer : Prop :=
  ∀ (i : Instr) (s t : State), exec i s = .next t → i ≠ .cls → (∀ x y n, i ≠ .drw x y n) →
    t.fb = s.fb

/-- An instruction that is no jump, call, return or skip, and no `Fx0A` with every key up, leaves `PC`
at `a + 2`. That a held key ends the wait is the spec's own decision (D11). -/
def Obligations.FrameOfProgramCounter : Prop :=
  ∀ (i : Instr) (s t : State), exec i s = .next t →
    i ≠ .ret → (∀ n, i ≠ .jp n) → (∀ n, i ≠ .call n) → (∀ n, i ≠ .jpV0 n) →
    (∀ x n, i ≠ .seImm x n) → (∀ x n, i ≠ .sneImm x n) → (∀ x y, i ≠ .seReg x y) →
    (∀ x y, i ≠ .sneReg x y) → (∀ x, i ≠ .skp x) → (∀ x, i ≠ .sknp x) →
    (∀ x, i ≠ .ldVxK x) ∨ s.io.keys ≠ 0 → t.pc = s.pc

/-- The inputs of a cycle matter only where the spec reads them: the keypad sample to `Ex9E`, `ExA1`
and `Fx0A`, the random byte to `Cxnn`. An instruction that does not read them has the same effect
under any other sample and byte. -/
def Obligations.InputsMatterOnlyWhereRead : Prop :=
  ∀ (i : Instr) (s t : State) (keys : BitVec 16) (rnd : Byte), exec i s = .next t →
    ((∀ x, i ≠ .skp x) → (∀ x, i ≠ .sknp x) → (∀ x, i ≠ .ldVxK x) →
      exec i { s with io := { s.io with keys := keys } } =
        .next { t with io := { t.io with keys := keys } }) ∧
    ((∀ x nn, i ≠ .rnd x nn) →
      exec i { s with io := { s.io with rnd := rnd } } =
        .next { t with io := { t.io with rnd := rnd } })

/-! ### Control transfer -/

/-- R101: `1nnn` sets `PC` to `nnn` and changes nothing else; it cannot raise anything. -/
def Obligations.JumpSetsProgramCounter : Prop :=
  ∀ (nnn : Addr) (s : State), decodeWord (formatNNN 0x1 nnn) = some (.jp nnn) ∧
    ∃ t, exec (.jp nnn) s = .next t ∧ t.pc.toNat = nnn.toNat ∧ t = { s with pc := t.pc }

/-- R102 and R173: `2nnn` pushes the advanced `PC`, increments `SP` and jumps; with 16 live entries it
halts with `StackOverflow`, stack and `PC` unchanged. -/
def Obligations.CallPushesReturnAddress : Prop :=
  ∀ (nnn : Addr) (s : State), decodeWord (formatNNN 0x2 nnn) = some (.call nnn) ∧
    (∀ h : s.sp.val < 16, ∃ t, exec (.call nnn) s = .next t ∧ t.pc.toNat = nnn.toNat ∧
      t.sp.val = s.sp.val + 1 ∧ t.stackEntry ⟨s.sp.val, h⟩ = s.pc ∧
      (∀ k : Fin 16, k.val ≠ s.sp.val → t.stackEntry k = s.stackEntry k) ∧
      t = { s with pc := t.pc, sp := t.sp, stack := t.stack }) ∧
    (s.sp.val = 16 →
      exec (.call nnn) s = .next { s with mode := .halt, cause := .stackOverflow })

/-- `00EE` with a live entry decrements `SP` and sets `PC` to the entry popped, which stays where it
is; the address is not checked. Both are the spec's own decisions (D27, D32). -/
def Obligations.ReturnPopsProgramCounter : Prop :=
  ∀ s : State, decodeWord 0x00EE = some .ret ∧
    ∀ h : 0 < s.sp.val, ∃ t, exec .ret s = .next t ∧ t.sp.val = s.sp.val - 1 ∧
      t.pc = s.stackEntry ⟨s.sp.val - 1, by omega⟩ ∧ t = { s with pc := t.pc, sp := t.sp }

/-- R174: `00EE` with an empty stack halts with `StackUnderflow`; `SP` stays 0 and `PC` stays
`a + 2`. -/
def Obligations.ReturnOnEmptyStackHalts : Prop :=
  ∀ s : State, s.sp.val = 0 →
    exec .ret s = .next { s with mode := .halt, cause := .stackUnderflow }

/-- A call and then a return come back to the instruction after the call, with `SP` and everything
else but the one dead stack entry as before. That a return clears no entry is the spec's own decision
(D32). -/
def Obligations.CallThenReturnComesBack : Prop :=
  ∀ (nnn : Addr) (s : State), s.sp.val < 16 →
    ∃ t u, exec (.call nnn) s = .next t ∧ exec .ret t = .next u ∧ u = { s with stack := u.stack } ∧
      ∀ k : Fin 16, k.val ≠ s.sp.val → u.stackEntry k = s.stackEntry k

/-- R103: `Bnnn` jumps to `nnn + V[0]`, computed without wrap; a target above 0xFFF halts with
`MemoryOutOfBounds` and `PC` stays `a + 2`. -/
def Obligations.IndexedJumpAddsRegisterZero : Prop :=
  ∀ (nnn : Addr) (s : State), decodeWord (formatNNN 0xB nnn) = some (.jpV0 nnn) ∧
    (nnn.toNat + (s.reg 0).toNat ≤ 0xFFF → ∃ t, exec (.jpV0 nnn) s = .next t ∧
      t.pc.toNat = nnn.toNat + (s.reg 0).toNat ∧ t = { s with pc := t.pc }) ∧
    (0xFFF < nnn.toNat + (s.reg 0).toNat →
      exec (.jpV0 nnn) s = .next { s with mode := .halt, cause := .memoryOutOfBounds })

/-- R104 and R105: `3xnn` skips one instruction when `V[x]` equals `nn`, `4xnn` when it differs, and
nothing else changes. -/
def Obligations.ImmediateSkips : Prop :=
  ∀ (x : Reg) (nn : Byte) (s : State),
    decodeWord (formatXNN 0x3 x nn) = some (.seImm x nn) ∧
    decodeWord (formatXNN 0x4 x nn) = some (.sneImm x nn) ∧
    exec (.seImm x nn) s =
      .next { s with pc := if (s.reg x).toNat = nn.toNat then s.pc + 2 else s.pc } ∧
    exec (.sneImm x nn) s =
      .next { s with pc := if (s.reg x).toNat = nn.toNat then s.pc else s.pc + 2 }

/-- R106 and R107: `5xy0` skips when `V[x]` equals `V[y]`, `9xy0` when they differ; with any other low
digit the word is unknown. -/
def Obligations.RegisterSkips : Prop :=
  ∀ (x y : Reg) (s : State),
    decodeWord (formatXYN 0x5 x y 0x0) = some (.seReg x y) ∧
    decodeWord (formatXYN 0x9 x y 0x0) = some (.sneReg x y) ∧
    (∀ n : Nibble, n ≠ 0 →
      decodeWord (formatXYN 0x5 x y n) = none ∧ decodeWord (formatXYN 0x9 x y n) = none) ∧
    exec (.seReg x y) s =
      .next { s with pc := if (s.reg x).toNat = (s.reg y).toNat then s.pc + 2 else s.pc } ∧
    exec (.sneReg x y) s =
      .next { s with pc := if (s.reg x).toNat = (s.reg y).toNat then s.pc else s.pc + 2 }

/-! ### Arithmetic and logic -/

/-- R122: `6xnn` loads `nn` into `V[x]` and changes nothing else. -/
def Obligations.LoadImmediateWritesRegister : Prop :=
  ∀ (x : Reg) (nn : Byte) (s : State), decodeWord (formatXNN 0x6 x nn) = some (.ldImm x nn) ∧
    ∃ t, exec (.ldImm x nn) s = .next t ∧ t.reg x = nn ∧
      (∀ r, r ≠ x → t.reg r = s.reg r) ∧ t = { s with v := t.v }

/-- R123: `7xnn` adds `nn` to `V[x]` modulo 256 and writes no flag, even when the sum wraps. -/
def Obligations.AddImmediateWritesNoFlag : Prop :=
  ∀ (x : Reg) (nn : Byte) (s : State), decodeWord (formatXNN 0x7 x nn) = some (.addImm x nn) ∧
    ∃ t, exec (.addImm x nn) s = .next t ∧
      (t.reg x).toNat = ((s.reg x).toNat + nn.toNat) % 256 ∧
      (∀ r, r ≠ x → t.reg r = s.reg r) ∧ t = { s with v := t.v }

/-- `8xy0` to `8xy3` copy, OR, AND and XOR bit by bit into `V[x]` and write no other register, `VF`
included: the spec's own decision for the three logic forms (D9). -/
def Obligations.CopyAndLogicWriteOneRegister : Prop :=
  ∀ (x y : Reg) (s : State),
    (∃ t, exec (.ldReg x y) s = .next t ∧ t = { s with v := t.v } ∧ t.reg x = s.reg y ∧
      ∀ r, r ≠ x → t.reg r = s.reg r) ∧
    (∃ t, exec (.orReg x y) s = .next t ∧ t = { s with v := t.v } ∧
      (∀ k < 8, (t.reg x).getLsbD k = ((s.reg x).getLsbD k || (s.reg y).getLsbD k)) ∧
      ∀ r, r ≠ x → t.reg r = s.reg r) ∧
    (∃ t, exec (.andReg x y) s = .next t ∧ t = { s with v := t.v } ∧
      (∀ k < 8, (t.reg x).getLsbD k = ((s.reg x).getLsbD k && (s.reg y).getLsbD k)) ∧
      ∀ r, r ≠ x → t.reg r = s.reg r) ∧
    (∃ t, exec (.xorReg x y) s = .next t ∧ t = { s with v := t.v } ∧
      (∀ k < 8, (t.reg x).getLsbD k = ((s.reg x).getLsbD k != (s.reg y).getLsbD k)) ∧
      ∀ r, r ≠ x → t.reg r = s.reg r)

/-- `8xy4`: `V[x]` gets the sum modulo 256, `VF` gets 1 exactly when the sum exceeds 255, also when
`x` is `F`; then the sum is lost, which is the spec's own decision (D8). -/
def Obligations.AddRegisterSetsCarry : Prop :=
  ∀ (x y : Reg) (s : State), ∃ t, exec (.addReg x y) s = .next t ∧ t = { s with v := t.v } ∧
    (x ≠ 15 → (t.reg x).toNat = ((s.reg x).toNat + (s.reg y).toNat) % 256) ∧
    t.reg 15 = (if 255 < (s.reg x).toNat + (s.reg y).toNat then 1 else 0) ∧
    ∀ r, r ≠ x → r ≠ 15 → t.reg r = s.reg r

/-- `8xy5` and `8xy7`: `V[x]` gets `V[x] - V[y]`, or `V[y] - V[x]`, modulo 256, and `VF` gets 1 exactly
when there is no borrow; with `x = F` the flag stands, the spec's own decision (D8). -/
def Obligations.SubtractSetsNotBorrow : Prop :=
  ∀ (x y : Reg) (s : State),
    (∃ t, exec (.subReg x y) s = .next t ∧ t = { s with v := t.v } ∧
      (x ≠ 15 → (t.reg x).toNat = ((s.reg x).toNat + 256 - (s.reg y).toNat) % 256) ∧
      t.reg 15 = (if (s.reg y).toNat ≤ (s.reg x).toNat then 1 else 0) ∧
      ∀ r, r ≠ x → r ≠ 15 → t.reg r = s.reg r) ∧
    (∃ t, exec (.subnReg x y) s = .next t ∧ t = { s with v := t.v } ∧
      (x ≠ 15 → (t.reg x).toNat = ((s.reg y).toNat + 256 - (s.reg x).toNat) % 256) ∧
      t.reg 15 = (if (s.reg x).toNat ≤ (s.reg y).toNat then 1 else 0) ∧
      ∀ r, r ≠ x → r ≠ 15 → t.reg r = s.reg r)

/-- `8xy6` and `8xyE` shift `V[x]` by one bit in place whatever `y` is, and `VF` gets the bit shifted
out; the shift source and the order of the writes are the spec's own decisions (D6, D8). -/
def Obligations.ShiftsMoveOneBit : Prop :=
  ∀ (x y : Reg) (s : State),
    (∃ t, exec (.shr x y) s = .next t ∧ t = { s with v := t.v } ∧
      (x ≠ 15 → (t.reg x).toNat = (s.reg x).toNat / 2) ∧
      (t.reg 15).toNat = (s.reg x).toNat % 2 ∧ ∀ r, r ≠ x → r ≠ 15 → t.reg r = s.reg r) ∧
    (∃ t, exec (.shl x y) s = .next t ∧ t = { s with v := t.v } ∧
      (x ≠ 15 → (t.reg x).toNat = (s.reg x).toNat * 2 % 256) ∧
      (t.reg 15).toNat = (s.reg x).toNat / 128 ∧ ∀ r, r ≠ x → r ≠ 15 → t.reg r = s.reg r)

/-- `Cxnn`: `V[x]` gets the random byte of the cycle masked by `nn`, whatever the byte is, so no bit
is set that `nn` lacks. That the byte is an input of the cycle is the spec's own decision (D21; log
2). -/
def Obligations.RandomByteIsMasked : Prop :=
  ∀ (x : Reg) (nn : Byte) (s : State), decodeWord (formatXNN 0xC x nn) = some (.rnd x nn) ∧
    ∃ t, exec (.rnd x nn) s = .next t ∧ t = { s with v := t.v } ∧
      (∀ k < 8, (t.reg x).getLsbD k = (s.io.rnd.getLsbD k && nn.getLsbD k)) ∧
      ∀ r, r ≠ x → t.reg r = s.reg r

/-! ### Index register and memory -/

/-- R140: `Annn` sets `I` to `nnn` and changes nothing else. -/
def Obligations.LoadIndexWritesAddress : Prop :=
  ∀ (nnn : Addr) (s : State), decodeWord (formatNNN 0xA nnn) = some (.ldI nnn) ∧
    ∃ t, exec (.ldI nnn) s = .next t ∧ t.i.toNat = nnn.toNat ∧ t = { s with i := t.i }

/-- `Fx1E` adds `V[x]` to `I` modulo 65536 and does not touch `VF`: the spec's own decision (D7). -/
def Obligations.AddIndexWrapsAtSixteenBits : Prop :=
  ∀ (x : Reg) (s : State), ∃ t, exec (.addI x) s = .next t ∧
    t.i.toNat = (s.i.toNat + (s.reg x).toNat) % 65536 ∧ t = { s with i := t.i }

/-- `Fx29` points `I` at the glyph of the low nibble of `V[x]`, inside the reserved range, whatever
`FONT_BASE` is (D4; log 4); right after reset the five bytes there are the glyph's rows in the font
table (D5; log 5). -/
def Obligations.GlyphAddressPointsAtFont : Prop :=
  ∀ (x : Reg) (s : State), ∃ t, exec (.ldF x) s = .next t ∧ t = { s with i := t.i } ∧
    t.i.toNat = Config.fontBase.val + 5 * ((s.reg x).toNat % 16) ∧ t.i.toNat + 4 < 0x200 ∧
    ∀ r < 5, some (State.reset.readByte (t.i.toNat + r)) =
      Config.fontData[5 * ((s.reg x).toNat % 16) + r]?

/-- `Fx33` stores the hundreds, tens and ones of `V[x]` at `I`, `I + 1`, `I + 2`, each a whole byte of
0 to 9, and together they are the value of `V[x]`. That the range is checked is the spec's own
decision (D13). -/
def Obligations.DecimalStoreWritesDigits : Prop :=
  ∀ (x : Reg) (s : State), s.i.toNat + 2 ≤ 0xFFF →
    ∃ t, exec (.ldB x) s = .next t ∧ t = { s with mem := t.mem } ∧
      100 * (t.readByte s.i.toNat).toNat + 10 * (t.readByte (s.i.toNat + 1)).toNat +
        (t.readByte (s.i.toNat + 2)).toNat = (s.reg x).toNat ∧
      (t.readByte s.i.toNat).toNat ≤ 2 ∧ (t.readByte (s.i.toNat + 1)).toNat ≤ 9 ∧
      (t.readByte (s.i.toNat + 2)).toNat ≤ 9 ∧
      ∀ a, ¬ storesTo (.ldB x) s a → t.readByte a = s.readByte a

/-- `Fx55` stores `V[0]` to `V[x]` inclusive at `I` to `I + x` and leaves every other byte, every
register and `I` as they were (`I` by the spec's own decision D12, the range check by D13). -/
def Obligations.StoreRegistersWritesRange : Prop :=
  ∀ (x : Reg) (s : State), s.i.toNat + x.val ≤ 0xFFF →
    ∃ t, exec (.storeRegs x) s = .next t ∧ t = { s with mem := t.mem } ∧
      (∀ r : Reg, r ≤ x → t.readByte (s.i.toNat + r.val) = s.reg r) ∧
      ∀ a, ¬ storesTo (.storeRegs x) s a → t.readByte a = s.readByte a

/-- `Fx65` loads `V[0]` to `V[x]` inclusive from `I` to `I + x`; higher registers, memory and `I` stay
(`I` by the spec's own decision D12, the range check by D13). -/
def Obligations.LoadRegistersReadsRange : Prop :=
  ∀ (x : Reg) (s : State), s.i.toNat + x.val ≤ 0xFFF →
    ∃ t, exec (.loadRegs x) s = .next t ∧ t = { s with v := t.v } ∧
      (∀ r : Reg, r ≤ x → t.reg r = s.readByte (s.i.toNat + r.val)) ∧
      ∀ r : Reg, x < r → t.reg r = s.reg r

/-- A transfer whose range ends above 0xFFF halts with `MemoryOutOfBounds` and no other effect, however
large `I` is: addresses never wrap. The spec's own decision (D13). -/
def Obligations.TransfersPastEndHalt : Prop :=
  ∀ (x y : Reg) (n : Nat) (s : State),
    (0xFFF < s.i.toNat + 2 →
      exec (.ldB x) s = .next { s with mode := .halt, cause := .memoryOutOfBounds }) ∧
    (0xFFF < s.i.toNat + x.val →
      exec (.storeRegs x) s = .next { s with mode := .halt, cause := .memoryOutOfBounds } ∧
      exec (.loadRegs x) s = .next { s with mode := .halt, cause := .memoryOutOfBounds }) ∧
    (0 < n → 0xFFF < s.i.toNat + (n - 1) →
      exec (.drw x y n) s = .next { s with mode := .halt, cause := .memoryOutOfBounds })

/-! ### Display -/

/-- R150: `00E0` turns every pixel off, writes no flag and changes nothing else. -/
def Obligations.ClearTurnsEveryPixelOff : Prop :=
  ∀ s : State, decodeWord 0x00E0 = some .cls ∧
    ∃ t, exec .cls s = .next t ∧ (∀ px py, t.pixel px py = false) ∧ t = { s with fb := t.fb }

/-- `Dxyn` XORs the sprite, wrapped on both axes, onto the framebuffer: every pixel changes exactly
where the sprite has a 1 bit, and `VF` is 1 exactly when some such pixel was on. The bounds check, the
empty sprite and the bit order are the spec's own decisions (D13, D18, D19; log 16). -/
def Obligations.DrawXorsWrappedSprite : Prop :=
  ∀ (x y : Reg) (n : Nat) (s : State), n < 16 → s.i.toNat + n ≤ 0x1000 →
    ∃ t, exec (.drw x y n) s = .next t ∧ t = { s with v := t.v, fb := t.fb } ∧
      (∀ px py, t.pixel px py = (s.pixel px py != s.spriteCovers x y n px py)) ∧
      (t.reg 15 = 1 ↔ ∃ px py, s.spriteCovers x y n px py = true ∧ s.pixel px py = true) ∧
      (t.reg 15 = 0 ∨ t.reg 15 = 1) ∧ ∀ r, r ≠ 15 → t.reg r = s.reg r

/-- Drawing the same sprite at the same position twice restores the framebuffer, and the second draw
collides exactly when some sprite pixel landed on an off pixel in the first. -/
def Obligations.DrawTwiceRestoresFramebuffer : Prop :=
  ∀ (x y : Reg) (n : Nat) (s : State), n < 16 → x ≠ 15 → y ≠ 15 → s.i.toNat + n ≤ 0x1000 →
    ∃ t u, exec (.drw x y n) s = .next t ∧ exec (.drw x y n) t = .next u ∧
      (∀ px py, u.pixel px py = s.pixel px py) ∧
      (u.reg 15 = 1 ↔ ∃ px py, s.spriteCovers x y n px py = true ∧ s.pixel px py = false)

/-- `Dxy0` reads no memory, changes no pixel, clears `VF` and cannot halt, whatever `I` is: the spec's
own decision (D18). -/
def Obligations.EmptySpriteClearsFlag : Prop :=
  ∀ (x y : Reg) (s : State), ∃ t, exec (.drw x y 0) s = .next t ∧ t = { s with v := t.v } ∧
    t.reg 15 = 0 ∧ ∀ r, r ≠ 15 → t.reg r = s.reg r

/-! ### Keypad and timers -/

/-- `Ex9E` skips when the key named by the low nibble of `V[x]` is down in this cycle's sample, `ExA1`
when it is up; the mask is the spec's own decision (D10). -/
def Obligations.KeySkipsTestLevel : Prop :=
  ∀ (x : Reg) (s : State),
    exec (.skp x) s = .next { s with
      pc := if s.io.keys.getLsbD ((s.reg x).toNat % 16) then s.pc + 2 else s.pc } ∧
    exec (.sknp x) s = .next { s with
      pc := if s.io.keys.getLsbD ((s.reg x).toNat % 16) then s.pc else s.pc + 2 }

/-- `Fx0A` with no key down holds `PC` at its own address and enters `WAIT_KEY`; with a key down it
stores the lowest-numbered one and goes on. Level-sensitive and lowest-first are the spec's own
decisions (D11); `a` is `PC - 2` (log 14). -/
def Obligations.KeyWaitTakesLowestKey : Prop :=
  ∀ (x : Reg) (s : State),
    (s.io.keys = 0 → exec (.ldVxK x) s = .next { s with pc := s.pc - 2, mode := .waitKey }) ∧
    (∀ k : Fin 16, s.io.keys.getLsbD k = true → (∀ j : Fin 16, j < k → s.io.keys.getLsbD j = false) →
      ∃ t, exec (.ldVxK x) s = .next t ∧ (t.reg x).toNat = k.val ∧
        (∀ r, r ≠ x → t.reg r = s.reg r) ∧ t = { s with v := t.v })

/-- `Fx07` copies `DT` to `V[x]`, `Fx15` copies `V[x]` to `DT`, `Fx18` copies `V[x]` to `ST`, where the
tone follows at once; nothing else changes. Their low bytes are general knowledge (log 16). -/
def Obligations.TimerTransfers : Prop :=
  ∀ (x : Reg) (s : State),
    (∃ t, exec (.ldVxDT x) s = .next t ∧ t.reg x = s.dt ∧ (∀ r, r ≠ x → t.reg r = s.reg r) ∧
      t = { s with v := t.v }) ∧
    exec (.ldDTVx x) s = .next { s with dt := s.reg x } ∧
    (∃ t, exec (.ldSTVx x) s = .next t ∧ t = { s with st := s.reg x } ∧
      (t.tone = true ↔ (s.reg x).toNat ≠ 0))

/-! ### Events -/

/-- `TICK` takes both timers down by one, not below 0, in every `MODE`, and changes nothing else of
the core; that it acts in `HALT` and `WAIT_KEY` is the spec's own decision (D23). -/
def Obligations.TickCountsBothTimersDown : Prop :=
  ∀ s : State, ∃ t, event .tick s = .next t ∧ t.dt.toNat = s.dt.toNat - 1 ∧
    t.st.toNat = s.st.toNat - 1 ∧ t = { s with dt := t.dt, st := t.st, io := t.io }

/-- `n` ticks in a row take each timer down by `n`, not below 0; after as many ticks as `ST` holds the
tone is off and stays off. `State.ticks`, the `n` ticks at once, is what a step with nothing pending
takes before its cycle: that it takes them so is the model's choice (log 3). That a tick acts in every
`MODE` is the spec's own decision (D23). -/
def Obligations.TicksComposeAndStopAtZero : Prop :=
  ∀ (n : Nat) (s : State), s.ticks n = Nat.iterate State.tick n s ∧
    (s.ticks n).dt.toNat = s.dt.toNat - n ∧ (s.ticks n).st.toNat = s.st.toNat - n ∧
    (s.st.toNat ≤ n → (s.ticks n).tone = false)

/-- `LOAD` of an image that fits, at 0x200 between reset and the first cycle, puts its bytes at
ascending addresses and changes no other byte and nothing else of the core; from the reset state this
is the launch state of the image, and the bytes above the image are zero. That only this use is
admitted is the spec's own decision (D33; log 9). -/
def Obligations.LoadCopiesImage : Prop :=
  ∀ (bytes : List Byte) (s : State), s.io.boot = .afterReset → bytes.length ≤ 3584 →
    ∃ t, event (.load bytes 0x200) s = .next t ∧ t = { s with mem := t.mem, io := t.io } ∧
      (∀ k < bytes.length, some (t.readByte (0x200 + k)) = bytes[k]?) ∧
      (∀ a, a < 0x200 ∨ 0x200 + bytes.length ≤ a → t.readByte a = s.readByte a) ∧
      t.io.boot = .loaded ∧
    ∃ l, launch bytes = .next l ∧ l = { State.reset with mem := l.mem, io := l.io } ∧
      (∀ k < bytes.length, some (l.readByte (0x200 + k)) = bytes[k]?) ∧
      (∀ a, a < 0x200 → l.readByte a = State.reset.readByte a) ∧
      ∀ a, 0x200 + bytes.length ≤ a → a < 4096 → l.readByte a = 0

/-- `LOAD` of an image that does not fit is answered `RomTooLarge` and changes nothing of the core, and
after it the core must not be cycled: a `CYCLE` is refused by name (log 18). A second `LOAD`, after an
accepted or a failed one, and any other use of `LOAD` is refused by name, which is the spec's own
decision (D33; log 9). -/
def Obligations.LoadRejectsWhatDoesNotFit : Prop :=
  ∀ (bytes : List Byte) (origin : Nat) (s : State),
    (s.io.boot = .afterReset → 3584 < bytes.length →
      event (.load bytes 0x200) s = .next { s with
        io := { s.io with report := some .romTooLarge, boot := .loadFailed } }) ∧
    (s.io.boot = .loadFailed →
      ∀ keys rnd, event (.cycle keys rnd) s = .refused .cycleAfterFailedLoad) ∧
    (s.io.boot ≠ .afterReset ∨ origin ≠ 0x200 →
      event (.load bytes origin) s = .refused .loadOutsideBoot)

/-- `RESET` gives every piece of state its reset value, whatever the state was: registers, `I`, stack,
`SP`, timers and framebuffer zero, `PC` 0x200, the font where `FONT_BASE` puts it and every other byte
zero, `RUN`, `NONE`, the output `status` (0, 0), no tone. The values of `I`, `MODE` and `CAUSE` and the
numbers of the codes are the spec's own decisions (D25, D28); where the font lies and its bytes are
logs 4 and 5. -/
def Obligations.ResetClearsEverything : Prop :=
  ∀ s : State, ∃ t, event .reset s = .next t ∧ (∀ r, t.reg r = 0) ∧ t.i = 0 ∧ t.pc = 0x200 ∧
    (∀ k, t.stackEntry k = 0) ∧ t.sp = 0 ∧ t.dt = 0 ∧ t.st = 0 ∧ (∀ px py, t.pixel px py = false) ∧
    t.mode = .run ∧ t.cause = .none ∧ t.status = (0, 0) ∧ t.tone = false ∧
    (∀ k < 80, some (t.readByte (Config.fontBase.val + k)) = Config.fontData[k]?) ∧
    ∀ a < 4096, a < Config.fontBase.val ∨ Config.fontBase.val + 80 ≤ a → t.readByte a = 0

/-! ### The end of a run -/

/-- A jump to itself is the end of a run: however many steps are taken with no host event pending, the
registers, `PC`, the stack, memory, the framebuffer and `CAUSE` never change again, and `MODE` is `RUN`
from the first step on. That this is the end of a run is the spec's own decision (D36); the free steps
with nothing pending are the model's choice (logs 1, 2, 3), and a run after a failed `LOAD` is refused
(R202; log 18). -/
def Obligations.SelfJumpIsFixedPoint : Prop :=
  ∀ (k : Nat) (s : State), s.selfJump → s.io.boot ≠ .loadFailed → s.io.pending = [] →
    ∃ t, Host.Core.run Sys2Proof.core k s = .next t ∧ s.sameButTimers t ∧ t.selfJump ∧
      (0 < k → t.mode = .run)
end

