-- ==== Sys2Proof/Laws/State.lean ====
section
/-! SUPPORT. One lemma per field per update of the state, true by `rfl`, so that no later proof
unfolds a record update; then the same for the accessors, and the named combinations of updates. -/

namespace Sys2Proof.Machine

variable (s : State)

/-! ### `setReg` -/

@[simp] theorem State.setReg_v (x : Reg) (b : Byte) : (s.setReg x b).v = s.v.set x b := rfl
@[simp] theorem State.setReg_i (x : Reg) (b : Byte) : (s.setReg x b).i = s.i := rfl
@[simp] theorem State.setReg_pc (x : Reg) (b : Byte) : (s.setReg x b).pc = s.pc := rfl
@[simp] theorem State.setReg_stack (x : Reg) (b : Byte) : (s.setReg x b).stack = s.stack := rfl
@[simp] theorem State.setReg_sp (x : Reg) (b : Byte) : (s.setReg x b).sp = s.sp := rfl
@[simp] theorem State.setReg_dt (x : Reg) (b : Byte) : (s.setReg x b).dt = s.dt := rfl
@[simp] theorem State.setReg_st (x : Reg) (b : Byte) : (s.setReg x b).st = s.st := rfl
@[simp] theorem State.setReg_mem (x : Reg) (b : Byte) : (s.setReg x b).mem = s.mem := rfl
@[simp] theorem State.setReg_fb (x : Reg) (b : Byte) : (s.setReg x b).fb = s.fb := rfl
@[simp] theorem State.setReg_mode (x : Reg) (b : Byte) : (s.setReg x b).mode = s.mode := rfl
@[simp] theorem State.setReg_cause (x : Reg) (b : Byte) : (s.setReg x b).cause = s.cause := rfl
@[simp] theorem State.setReg_io (x : Reg) (b : Byte) : (s.setReg x b).io = s.io := rfl
@[simp] theorem State.setReg_readByte (x : Reg) (b : Byte) (a : Nat) : (s.setReg x b).readByte a = s.readByte a := rfl
@[simp] theorem State.setReg_pixel (x : Reg) (b : Byte) (px : Fin 64) (py : Fin 32) : (s.setReg x b).pixel px py = s.pixel px py := rfl
@[simp] theorem State.setReg_stackEntry (x : Reg) (b : Byte) (j : Fin 16) : (s.setReg x b).stackEntry j = s.stackEntry j := rfl

/-! ### `setI` -/

@[simp] theorem State.setI_v (w : Word) : (s.setI w).v = s.v := rfl
@[simp] theorem State.setI_i (w : Word) : (s.setI w).i = w := rfl
@[simp] theorem State.setI_pc (w : Word) : (s.setI w).pc = s.pc := rfl
@[simp] theorem State.setI_stack (w : Word) : (s.setI w).stack = s.stack := rfl
@[simp] theorem State.setI_sp (w : Word) : (s.setI w).sp = s.sp := rfl
@[simp] theorem State.setI_dt (w : Word) : (s.setI w).dt = s.dt := rfl
@[simp] theorem State.setI_st (w : Word) : (s.setI w).st = s.st := rfl
@[simp] theorem State.setI_mem (w : Word) : (s.setI w).mem = s.mem := rfl
@[simp] theorem State.setI_fb (w : Word) : (s.setI w).fb = s.fb := rfl
@[simp] theorem State.setI_mode (w : Word) : (s.setI w).mode = s.mode := rfl
@[simp] theorem State.setI_cause (w : Word) : (s.setI w).cause = s.cause := rfl
@[simp] theorem State.setI_io (w : Word) : (s.setI w).io = s.io := rfl
@[simp] theorem State.setI_reg (w : Word) (y : Reg) : (s.setI w).reg y = s.reg y := rfl
@[simp] theorem State.setI_readByte (w : Word) (a : Nat) : (s.setI w).readByte a = s.readByte a := rfl
@[simp] theorem State.setI_pixel (w : Word) (px : Fin 64) (py : Fin 32) : (s.setI w).pixel px py = s.pixel px py := rfl
@[simp] theorem State.setI_stackEntry (w : Word) (j : Fin 16) : (s.setI w).stackEntry j = s.stackEntry j := rfl

/-! ### `setPC` -/

@[simp] theorem State.setPC_v (w : Word) : (s.setPC w).v = s.v := rfl
@[simp] theorem State.setPC_i (w : Word) : (s.setPC w).i = s.i := rfl
@[simp] theorem State.setPC_pc (w : Word) : (s.setPC w).pc = w := rfl
@[simp] theorem State.setPC_stack (w : Word) : (s.setPC w).stack = s.stack := rfl
@[simp] theorem State.setPC_sp (w : Word) : (s.setPC w).sp = s.sp := rfl
@[simp] theorem State.setPC_dt (w : Word) : (s.setPC w).dt = s.dt := rfl
@[simp] theorem State.setPC_st (w : Word) : (s.setPC w).st = s.st := rfl
@[simp] theorem State.setPC_mem (w : Word) : (s.setPC w).mem = s.mem := rfl
@[simp] theorem State.setPC_fb (w : Word) : (s.setPC w).fb = s.fb := rfl
@[simp] theorem State.setPC_mode (w : Word) : (s.setPC w).mode = s.mode := rfl
@[simp] theorem State.setPC_cause (w : Word) : (s.setPC w).cause = s.cause := rfl
@[simp] theorem State.setPC_io (w : Word) : (s.setPC w).io = s.io := rfl
@[simp] theorem State.setPC_reg (w : Word) (y : Reg) : (s.setPC w).reg y = s.reg y := rfl
@[simp] theorem State.setPC_readByte (w : Word) (a : Nat) : (s.setPC w).readByte a = s.readByte a := rfl
@[simp] theorem State.setPC_pixel (w : Word) (px : Fin 64) (py : Fin 32) : (s.setPC w).pixel px py = s.pixel px py := rfl
@[simp] theorem State.setPC_stackEntry (w : Word) (j : Fin 16) : (s.setPC w).stackEntry j = s.stackEntry j := rfl

/-! ### `setDT` -/

@[simp] theorem State.setDT_v (b : Byte) : (s.setDT b).v = s.v := rfl
@[simp] theorem State.setDT_i (b : Byte) : (s.setDT b).i = s.i := rfl
@[simp] theorem State.setDT_pc (b : Byte) : (s.setDT b).pc = s.pc := rfl
@[simp] theorem State.setDT_stack (b : Byte) : (s.setDT b).stack = s.stack := rfl
@[simp] theorem State.setDT_sp (b : Byte) : (s.setDT b).sp = s.sp := rfl
@[simp] theorem State.setDT_dt (b : Byte) : (s.setDT b).dt = b := rfl
@[simp] theorem State.setDT_st (b : Byte) : (s.setDT b).st = s.st := rfl
@[simp] theorem State.setDT_mem (b : Byte) : (s.setDT b).mem = s.mem := rfl
@[simp] theorem State.setDT_fb (b : Byte) : (s.setDT b).fb = s.fb := rfl
@[simp] theorem State.setDT_mode (b : Byte) : (s.setDT b).mode = s.mode := rfl
@[simp] theorem State.setDT_cause (b : Byte) : (s.setDT b).cause = s.cause := rfl
@[simp] theorem State.setDT_io (b : Byte) : (s.setDT b).io = s.io := rfl
@[simp] theorem State.setDT_reg (b : Byte) (y : Reg) : (s.setDT b).reg y = s.reg y := rfl
@[simp] theorem State.setDT_readByte (b : Byte) (a : Nat) : (s.setDT b).readByte a = s.readByte a := rfl
@[simp] theorem State.setDT_pixel (b : Byte) (px : Fin 64) (py : Fin 32) : (s.setDT b).pixel px py = s.pixel px py := rfl
@[simp] theorem State.setDT_stackEntry (b : Byte) (j : Fin 16) : (s.setDT b).stackEntry j = s.stackEntry j := rfl

/-! ### `setST` -/

@[simp] theorem State.setST_v (b : Byte) : (s.setST b).v = s.v := rfl
@[simp] theorem State.setST_i (b : Byte) : (s.setST b).i = s.i := rfl
@[simp] theorem State.setST_pc (b : Byte) : (s.setST b).pc = s.pc := rfl
@[simp] theorem State.setST_stack (b : Byte) : (s.setST b).stack = s.stack := rfl
@[simp] theorem State.setST_sp (b : Byte) : (s.setST b).sp = s.sp := rfl
@[simp] theorem State.setST_dt (b : Byte) : (s.setST b).dt = s.dt := rfl
@[simp] theorem State.setST_st (b : Byte) : (s.setST b).st = b := rfl
@[simp] theorem State.setST_mem (b : Byte) : (s.setST b).mem = s.mem := rfl
@[simp] theorem State.setST_fb (b : Byte) : (s.setST b).fb = s.fb := rfl
@[simp] theorem State.setST_mode (b : Byte) : (s.setST b).mode = s.mode := rfl
@[simp] theorem State.setST_cause (b : Byte) : (s.setST b).cause = s.cause := rfl
@[simp] theorem State.setST_io (b : Byte) : (s.setST b).io = s.io := rfl
@[simp] theorem State.setST_reg (b : Byte) (y : Reg) : (s.setST b).reg y = s.reg y := rfl
@[simp] theorem State.setST_readByte (b : Byte) (a : Nat) : (s.setST b).readByte a = s.readByte a := rfl
@[simp] theorem State.setST_pixel (b : Byte) (px : Fin 64) (py : Fin 32) : (s.setST b).pixel px py = s.pixel px py := rfl
@[simp] theorem State.setST_stackEntry (b : Byte) (j : Fin 16) : (s.setST b).stackEntry j = s.stackEntry j := rfl

/-! ### `setMem` -/

@[simp] theorem State.setMem_v (m : Memory) : (s.setMem m).v = s.v := rfl
@[simp] theorem State.setMem_i (m : Memory) : (s.setMem m).i = s.i := rfl
@[simp] theorem State.setMem_pc (m : Memory) : (s.setMem m).pc = s.pc := rfl
@[simp] theorem State.setMem_stack (m : Memory) : (s.setMem m).stack = s.stack := rfl
@[simp] theorem State.setMem_sp (m : Memory) : (s.setMem m).sp = s.sp := rfl
@[simp] theorem State.setMem_dt (m : Memory) : (s.setMem m).dt = s.dt := rfl
@[simp] theorem State.setMem_st (m : Memory) : (s.setMem m).st = s.st := rfl
@[simp] theorem State.setMem_mem (m : Memory) : (s.setMem m).mem = m := rfl
@[simp] theorem State.setMem_fb (m : Memory) : (s.setMem m).fb = s.fb := rfl
@[simp] theorem State.setMem_mode (m : Memory) : (s.setMem m).mode = s.mode := rfl
@[simp] theorem State.setMem_cause (m : Memory) : (s.setMem m).cause = s.cause := rfl
@[simp] theorem State.setMem_io (m : Memory) : (s.setMem m).io = s.io := rfl
@[simp] theorem State.setMem_reg (m : Memory) (y : Reg) : (s.setMem m).reg y = s.reg y := rfl
@[simp] theorem State.setMem_pixel (m : Memory) (px : Fin 64) (py : Fin 32) : (s.setMem m).pixel px py = s.pixel px py := rfl
@[simp] theorem State.setMem_stackEntry (m : Memory) (j : Fin 16) : (s.setMem m).stackEntry j = s.stackEntry j := rfl

/-! ### `setFB` -/

@[simp] theorem State.setFB_v (f : Framebuffer) : (s.setFB f).v = s.v := rfl
@[simp] theorem State.setFB_i (f : Framebuffer) : (s.setFB f).i = s.i := rfl
@[simp] theorem State.setFB_pc (f : Framebuffer) : (s.setFB f).pc = s.pc := rfl
@[simp] theorem State.setFB_stack (f : Framebuffer) : (s.setFB f).stack = s.stack := rfl
@[simp] theorem State.setFB_sp (f : Framebuffer) : (s.setFB f).sp = s.sp := rfl
@[simp] theorem State.setFB_dt (f : Framebuffer) : (s.setFB f).dt = s.dt := rfl
@[simp] theorem State.setFB_st (f : Framebuffer) : (s.setFB f).st = s.st := rfl
@[simp] theorem State.setFB_mem (f : Framebuffer) : (s.setFB f).mem = s.mem := rfl
@[simp] theorem State.setFB_fb (f : Framebuffer) : (s.setFB f).fb = f := rfl
@[simp] theorem State.setFB_mode (f : Framebuffer) : (s.setFB f).mode = s.mode := rfl
@[simp] theorem State.setFB_cause (f : Framebuffer) : (s.setFB f).cause = s.cause := rfl
@[simp] theorem State.setFB_io (f : Framebuffer) : (s.setFB f).io = s.io := rfl
@[simp] theorem State.setFB_reg (f : Framebuffer) (y : Reg) : (s.setFB f).reg y = s.reg y := rfl
@[simp] theorem State.setFB_readByte (f : Framebuffer) (a : Nat) : (s.setFB f).readByte a = s.readByte a := rfl
@[simp] theorem State.setFB_stackEntry (f : Framebuffer) (j : Fin 16) : (s.setFB f).stackEntry j = s.stackEntry j := rfl

/-! ### `setStatus` -/

@[simp] theorem State.setStatus_v (m : Mode) (c : Cause) : (s.setStatus m c).v = s.v := rfl
@[simp] theorem State.setStatus_i (m : Mode) (c : Cause) : (s.setStatus m c).i = s.i := rfl
@[simp] theorem State.setStatus_pc (m : Mode) (c : Cause) : (s.setStatus m c).pc = s.pc := rfl
@[simp] theorem State.setStatus_stack (m : Mode) (c : Cause) : (s.setStatus m c).stack = s.stack := rfl
@[simp] theorem State.setStatus_sp (m : Mode) (c : Cause) : (s.setStatus m c).sp = s.sp := rfl
@[simp] theorem State.setStatus_dt (m : Mode) (c : Cause) : (s.setStatus m c).dt = s.dt := rfl
@[simp] theorem State.setStatus_st (m : Mode) (c : Cause) : (s.setStatus m c).st = s.st := rfl
@[simp] theorem State.setStatus_mem (m : Mode) (c : Cause) : (s.setStatus m c).mem = s.mem := rfl
@[simp] theorem State.setStatus_fb (m : Mode) (c : Cause) : (s.setStatus m c).fb = s.fb := rfl
@[simp] theorem State.setStatus_mode (m : Mode) (c : Cause) : (s.setStatus m c).mode = m := rfl
@[simp] theorem State.setStatus_cause (m : Mode) (c : Cause) : (s.setStatus m c).cause = c := rfl
@[simp] theorem State.setStatus_io (m : Mode) (c : Cause) : (s.setStatus m c).io = s.io := rfl
@[simp] theorem State.setStatus_reg (m : Mode) (c : Cause) (y : Reg) : (s.setStatus m c).reg y = s.reg y := rfl
@[simp] theorem State.setStatus_readByte (m : Mode) (c : Cause) (a : Nat) : (s.setStatus m c).readByte a = s.readByte a := rfl
@[simp] theorem State.setStatus_pixel (m : Mode) (c : Cause) (px : Fin 64) (py : Fin 32) : (s.setStatus m c).pixel px py = s.pixel px py := rfl
@[simp] theorem State.setStatus_stackEntry (m : Mode) (c : Cause) (j : Fin 16) : (s.setStatus m c).stackEntry j = s.stackEntry j := rfl

/-! ### `setStack` -/

@[simp] theorem State.setStack_v (k : Vector Word Config.stackDepth) (p : Fin 17) : (s.setStack k p).v = s.v := rfl
@[simp] theorem State.setStack_i (k : Vector Word Config.stackDepth) (p : Fin 17) : (s.setStack k p).i = s.i := rfl
@[simp] theorem State.setStack_pc (k : Vector Word Config.stackDepth) (p : Fin 17) : (s.setStack k p).pc = s.pc := rfl
@[simp] theorem State.setStack_stack (k : Vector Word Config.stackDepth) (p : Fin 17) : (s.setStack k p).stack = k := rfl
@[simp] theorem State.setStack_sp (k : Vector Word Config.stackDepth) (p : Fin 17) : (s.setStack k p).sp = p := rfl
@[simp] theorem State.setStack_dt (k : Vector Word Config.stackDepth) (p : Fin 17) : (s.setStack k p).dt = s.dt := rfl
@[simp] theorem State.setStack_st (k : Vector Word Config.stackDepth) (p : Fin 17) : (s.setStack k p).st = s.st := rfl
@[simp] theorem State.setStack_mem (k : Vector Word Config.stackDepth) (p : Fin 17) : (s.setStack k p).mem = s.mem := rfl
@[simp] theorem State.setStack_fb (k : Vector Word Config.stackDepth) (p : Fin 17) : (s.setStack k p).fb = s.fb := rfl
@[simp] theorem State.setStack_mode (k : Vector Word Config.stackDepth) (p : Fin 17) : (s.setStack k p).mode = s.mode := rfl
@[simp] theorem State.setStack_cause (k : Vector Word Config.stackDepth) (p : Fin 17) : (s.setStack k p).cause = s.cause := rfl
@[simp] theorem State.setStack_io (k : Vector Word Config.stackDepth) (p : Fin 17) : (s.setStack k p).io = s.io := rfl
@[simp] theorem State.setStack_reg (k : Vector Word Config.stackDepth) (p : Fin 17) (y : Reg) : (s.setStack k p).reg y = s.reg y := rfl
@[simp] theorem State.setStack_readByte (k : Vector Word Config.stackDepth) (p : Fin 17) (a : Nat) : (s.setStack k p).readByte a = s.readByte a := rfl
@[simp] theorem State.setStack_pixel (k : Vector Word Config.stackDepth) (p : Fin 17) (px : Fin 64) (py : Fin 32) : (s.setStack k p).pixel px py = s.pixel px py := rfl

/-! ### `setIo` -/

@[simp] theorem State.setIo_v (r : Io) : (s.setIo r).v = s.v := rfl
@[simp] theorem State.setIo_i (r : Io) : (s.setIo r).i = s.i := rfl
@[simp] theorem State.setIo_pc (r : Io) : (s.setIo r).pc = s.pc := rfl
@[simp] theorem State.setIo_stack (r : Io) : (s.setIo r).stack = s.stack := rfl
@[simp] theorem State.setIo_sp (r : Io) : (s.setIo r).sp = s.sp := rfl
@[simp] theorem State.setIo_dt (r : Io) : (s.setIo r).dt = s.dt := rfl
@[simp] theorem State.setIo_st (r : Io) : (s.setIo r).st = s.st := rfl
@[simp] theorem State.setIo_mem (r : Io) : (s.setIo r).mem = s.mem := rfl
@[simp] theorem State.setIo_fb (r : Io) : (s.setIo r).fb = s.fb := rfl
@[simp] theorem State.setIo_mode (r : Io) : (s.setIo r).mode = s.mode := rfl
@[simp] theorem State.setIo_cause (r : Io) : (s.setIo r).cause = s.cause := rfl
@[simp] theorem State.setIo_io (r : Io) : (s.setIo r).io = r := rfl
@[simp] theorem State.setIo_reg (r : Io) (y : Reg) : (s.setIo r).reg y = s.reg y := rfl
@[simp] theorem State.setIo_readByte (r : Io) (a : Nat) : (s.setIo r).readByte a = s.readByte a := rfl
@[simp] theorem State.setIo_pixel (r : Io) (px : Fin 64) (py : Fin 32) : (s.setIo r).pixel px py = s.pixel px py := rfl
@[simp] theorem State.setIo_stackEntry (r : Io) (j : Fin 16) : (s.setIo r).stackEntry j = s.stackEntry j := rfl

/-! ### Accessors of what an update wrote -/

/-- A register read after a register write. -/
theorem State.reg_setReg (x y : Reg) (b : Byte) :
    (s.setReg x b).reg y = if y = x then b else s.reg y := by
  simp only [State.reg, State.setReg, Fin.getElem_fin, Vector.getElem_set, Fin.val_inj, eq_comm]

@[simp] theorem State.reg_setReg_same (x : Reg) (b : Byte) : (s.setReg x b).reg x = b := by
  simp [State.reg_setReg]

theorem State.reg_setReg_other {x y : Reg} (h : y ≠ x) (b : Byte) :
    (s.setReg x b).reg y = s.reg y := by
  simp [State.reg_setReg, h]

@[simp] theorem State.readByte_setMem (m : Memory) (a : Nat) :
    (s.setMem m).readByte a = m.read a := rfl

@[simp] theorem State.pixel_setFB (f : Framebuffer) (px : Fin 64) (py : Fin 32) :
    (s.setFB f).pixel px py = f.pixel px py := rfl

/-- A state is equal to another that agrees on every field. -/
theorem State.ext_fields {s t : State} (hv : s.v = t.v) (hi : s.i = t.i) (hpc : s.pc = t.pc)
    (hstack : s.stack = t.stack) (hsp : s.sp = t.sp) (hdt : s.dt = t.dt) (hst : s.st = t.st)
    (hmem : s.mem = t.mem) (hfb : s.fb = t.fb) (hmode : s.mode = t.mode)
    (hcause : s.cause = t.cause) (hio : s.io = t.io) : s = t := by
  cases s; cases t; simp_all

/-! ### The named combinations of updates -/

@[simp] theorem State.skipIf_eq (c : Bool) :
    s.skipIf c = s.setPC (if c then s.pc + 2 else s.pc) := rfl

@[simp] theorem State.writeByte_eq (a : Nat) (b : Byte) :
    s.writeByte a b = s.setMem (s.mem.write a b) := rfl

@[simp] theorem State.push_eq (w : Word) :
    s.push w = s.setStack (s.stack.setIfInBounds s.sp w) (Fin.ofNat 17 (s.sp + 1)) := rfl

@[simp] theorem State.drop_eq : s.drop = s.setStack s.stack (Fin.ofNat 17 (s.sp - 1)) := rfl

@[simp] theorem State.setReport_eq (r : Option Report) :
    s.setReport r = s.setIo { s.io with report := r } := rfl

@[simp] theorem State.setResultAndFlag_eq (x : Reg) (b : Byte) (c : Bool) :
    s.setResultAndFlag x b c = (s.setReg x b).setReg regF (flagByte c) := rfl

@[simp] theorem State.holdForKey_eq :
    s.holdForKey = (s.setPC (s.pc - 2)).setStatus .waitKey s.cause := rfl

@[simp] theorem State.beginCycle_eq (keys : BitVec 16) (rnd : Byte) :
    s.beginCycle keys rnd =
      s.setIo { s.io with keys := keys, rnd := rnd, report := none, boot := .cycling } := rfl

@[simp] theorem State.advance_eq : s.advance = (s.setPC (s.pc + 2)).setStatus .run s.cause := rfl

@[simp] theorem State.tick_eq :
    s.tick = (s.setDT (timerDown s.dt)).setST (timerDown s.st) := rfl

@[simp] theorem State.ticks_eq (n : Nat) :
    s.ticks n = (s.setDT (timerAfter n s.dt)).setST (timerAfter n s.st) := rfl

end Sys2Proof.Machine
end

