-- ==== Sys2Proof/Laws/Memory.lean ====
section
/-! SUPPORT. Memory: read after write, read after a load of bytes, and that every operation keeps the
canonical form. Read laws hold for every list of cells, canonical or not. -/

namespace Sys2Proof.Machine

/-! ### Read after write -/

/-- Cells of other addresses do not matter to a read. -/
theorem Memory.read_append_of_absent {l : Memory} {a : Nat} (h : ∀ c ∈ l, c.1 ≠ a) (m : Memory) :
    Memory.read (l ++ m) a = Memory.read m a := by
  induction l with
  | nil => rfl
  | cons c l ih =>
    have hc : c.1 ≠ a := h c (by simp)
    simpa [Memory.read, hc] using ih (fun d hd => h d (by simp [hd]))

/-- Nor do cells a filter drops, where it keeps the address read. -/
theorem Memory.read_filter_append {p : Nat → Bool} {a : Nat} (hp : p a = true) {r : Memory}
    (hr : ∀ c ∈ r, c.1 ≠ a) (m : Memory) :
    Memory.read (m.filter (fun c => p c.1) ++ r) a = Memory.read m a := by
  induction m with
  | nil => simpa using Memory.read_append_of_absent hr []
  | cons c m ih =>
    by_cases hc : c.1 = a
    · simp [Memory.read, hc, hp]
    · by_cases hk : p c.1 = true
      · simpa [List.filter_cons, Memory.read, hc, hk] using ih
      · simpa [List.filter_cons, Memory.read, hc, hk] using ih

/-- A read after a write: the value written at that address, the old byte at every other. -/
@[simp] theorem Memory.read_write (m : Memory) (a b : Nat) (v : Byte) :
    (m.write a v).read b = if b = a then v else m.read b := by
  unfold Memory.write
  obtain h | rfl | h := Nat.lt_trichotomy b a
  · rw [List.append_assoc, if_neg (show ¬ b = a by omega)]
    refine Memory.read_filter_append (p := fun c => decide (c < a)) (by simpa using h) ?_ m
    intro c hc
    obtain hc | hc := List.mem_append.1 hc
    · split at hc <;> simp_all; omega
    · have := (List.mem_filter.1 hc).2; simp at this; omega
  · have hlow : ∀ c ∈ m.filter (fun c => c.1 < b), c.1 ≠ b := by
      intro c hc; have := (List.mem_filter.1 hc).2; simp at this; omega
    have hhigh : ∀ c ∈ m.filter (fun c => b < c.1), c.1 ≠ b := by
      intro c hc; have := (List.mem_filter.1 hc).2; simp at this; omega
    rw [List.append_assoc, Memory.read_append_of_absent hlow, if_pos rfl]
    split
    next hv => simpa [Memory.read, hv] using Memory.read_append_of_absent hhigh []
    next => simp [Memory.read]
  · have hlow : ∀ c ∈ m.filter (fun c => c.1 < a) ++
        (if v = Memory.initial a then [] else [(a, v)]), c.1 ≠ b := by
      intro c hc
      obtain hc | hc := List.mem_append.1 hc
      · have := (List.mem_filter.1 hc).2; simp at this; omega
      · split at hc <;> simp_all; omega
    rw [Memory.read_append_of_absent hlow, if_neg (show ¬ b = a by omega)]
    simpa using Memory.read_filter_append (p := fun c => decide (a < c)) (by simpa using h)
      (r := []) (by simp) m

/-- A read after a load of bytes: the byte loaded inside the range, the old byte outside it. -/
theorem Memory.read_load (bs : List Byte) (m : Memory) (a b : Nat) :
    (m.load a bs).read b = if a ≤ b ∧ b < a + bs.length then bs.getD (b - a) 0 else m.read b := by
  induction bs generalizing m a with
  | nil => rw [if_neg (by simp)]; rfl
  | cons v bs ih =>
    rw [Memory.load, ih, Memory.read_write]
    by_cases h : b = a
    · subst h; simp
    · by_cases hin : a + 1 ≤ b ∧ b < a + 1 + bs.length
      · obtain ⟨k, rfl⟩ : ∃ k, b = a + 1 + k := ⟨b - (a + 1), by omega⟩
        have : a + 1 + k - a = k + 1 := by omega
        rw [if_pos hin, if_pos (by simp only [List.length_cons]; omega), this]
        simp
      · rw [if_neg hin, if_neg h, if_neg (by simp; omega)]

/-- A load leaves every byte outside its range alone. -/
theorem Memory.read_load_outside {bs : List Byte} {m : Memory} {a b : Nat}
    (h : b < a ∨ a + bs.length ≤ b) : (m.load a bs).read b = m.read b := by
  rw [Memory.read_load, if_neg (by omega)]

/-- A load puts byte `k` at offset `k`. -/
theorem Memory.read_load_inside {bs : List Byte} {m : Memory} {a k : Nat} (h : k < bs.length) :
    (m.load a bs).read (a + k) = bs[k] := by
  rw [Memory.read_load, if_pos (by omega)]
  simp [h]

/-! ### The canonical form -/

/-- The canonical form from a higher address is one from a lower address. -/
theorem Memory.wfFrom_mono {m : Memory} {lo lo' : Nat} (h : lo' ≤ lo)
    (hm : Memory.wfFrom lo m = true) : Memory.wfFrom lo' m = true := by
  cases m with
  | nil => rfl
  | cons c m =>
    simp only [Memory.wfFrom, Bool.and_eq_true, decide_eq_true_eq] at hm ⊢
    exact ⟨⟨⟨by omega, hm.1.1.2⟩, hm.1.2⟩, hm.2⟩

/-- Every cell of a canonical memory lies at or above its bound. -/
theorem Memory.wfFrom_bound {m : Memory} {lo : Nat} (hm : Memory.wfFrom lo m = true) :
    ∀ c ∈ m, lo ≤ c.1 := by
  induction m generalizing lo with
  | nil => simp
  | cons c m ih =>
    simp only [Memory.wfFrom, Bool.and_eq_true, decide_eq_true_eq] at hm
    intro d hd
    obtain rfl | hd := List.mem_cons.1 hd
    · exact hm.1.1.1
    · have := ih hm.2 d hd; omega

/-- The cells above an address of a canonical memory are canonical from the next address on. -/
theorem Memory.wfFrom_filter_above {m : Memory} {lo : Nat} (a : Nat)
    (hm : Memory.wfFrom lo m = true) :
    Memory.wfFrom (a + 1) (m.filter (fun c => a < c.1)) = true := by
  induction m generalizing lo with
  | nil => rfl
  | cons c m ih =>
    have hm' := hm
    simp only [Memory.wfFrom, Bool.and_eq_true, decide_eq_true_eq] at hm
    by_cases h : a < c.1
    · have hall : m.filter (fun c => decide (a < c.1)) = m := by
        apply List.filter_eq_self.2
        intro d hd; have := Memory.wfFrom_bound hm.2 d hd; simp; omega
      simp only [List.filter_cons, h, decide_true, if_true, hall, Memory.wfFrom, Bool.and_eq_true,
        decide_eq_true_eq]
      exact ⟨⟨⟨by omega, hm.1.1.2⟩, hm.1.2⟩, hm.2⟩
    · simpa [List.filter_cons, h] using ih hm.2

/-- A write at or above the bound keeps the canonical form. -/
theorem Memory.wfFrom_write {m : Memory} {lo a : Nat} (v : Byte) (hm : Memory.wfFrom lo m = true)
    (hlo : lo ≤ a) (ha : a < Config.memSize) : Memory.wfFrom lo (m.write a v) = true := by
  induction m generalizing lo with
  | nil =>
    simp only [Memory.write, List.filter_nil, List.nil_append, List.append_nil]
    split
    · rfl
    next hv => simp [Memory.wfFrom, hlo, ha, hv]
  | cons c m ih =>
    have hm' := hm
    simp only [Memory.wfFrom, Bool.and_eq_true, decide_eq_true_eq] at hm
    by_cases h : c.1 < a
    · have h' : ¬ a < c.1 := by omega
      have := ih hm.2 (by omega)
      simp only [Memory.write, List.filter_cons, h, h', decide_true, decide_false, if_true,
        Bool.false_eq_true, if_false, List.cons_append, Memory.wfFrom, Bool.and_eq_true,
        decide_eq_true_eq] at this ⊢
      exact ⟨hm.1, this⟩
    · have hnone : (c :: m).filter (fun c => decide (c.1 < a)) = [] := by
        apply List.filter_eq_nil_iff.2
        intro d hd
        obtain rfl | hd := List.mem_cons.1 hd
        · simpa using h
        · have := Memory.wfFrom_bound hm.2 d hd; simp; omega
      have habove := Memory.wfFrom_filter_above a hm'
      simp only [Memory.write, hnone, List.nil_append]
      split
      · exact Memory.wfFrom_mono (by omega) habove
      next hv => simp [Memory.wfFrom, hlo, ha, hv, habove]

/-- A write inside memory keeps the canonical form. -/
theorem Memory.wf_write {m : Memory} {a : Nat} (v : Byte) (hm : m.wf = true)
    (ha : a < Config.memSize) : (m.write a v).wf = true :=
  Memory.wfFrom_write v hm (Nat.zero_le a) ha

/-- A load of bytes inside memory keeps the canonical form. -/
theorem Memory.wf_load {bs : List Byte} {m : Memory} {a : Nat} (hm : m.wf = true)
    (ha : a + bs.length ≤ Config.memSize) : (m.load a bs).wf = true := by
  induction bs generalizing m a with
  | nil => exact hm
  | cons v bs ih =>
    simp only [List.length_cons] at ha
    exact ih (Memory.wf_write v hm (by omega)) (by omega)

/-- The memory right after reset is canonical. -/
theorem Memory.wf_reset : State.reset.mem.wf = true := rfl

/-- From 0x200 on, an address nothing has written reads as zero (R51). -/
theorem Memory.initial_program {a : Nat} (h : 0x200 ≤ a) : Memory.initial a = 0 := by
  simp [Memory.initial, Config.progOrigin, h]

/-- The font lies at `FONT_BASE` after reset (R57). -/
theorem Memory.initial_font {k : Nat} (h : k < 80) :
    Memory.initial (Config.fontBase.val + k) = Config.fontData.getD k 0 := by
  have := Config.fontBase.isLt
  simp only [Memory.initial, Config.progOrigin]
  rw [if_neg (by omega), if_neg (by omega)]
  congr 1
  omega

/-- Outside the font, memory is zero after reset (R51). -/
theorem Memory.initial_outside {a : Nat}
    (h : a < Config.fontBase.val ∨ Config.fontBase.val + 80 ≤ a) : Memory.initial a = 0 := by
  unfold Memory.initial
  split
  · rfl
  · split
    · rfl
    next h2 =>
      have hlen : Config.fontData.length ≤ a - Config.fontBase.val := by
        have : Config.fontData.length = 80 := rfl
        omega
      simp [List.getD, List.getElem?_eq_none hlen]

end Sys2Proof.Machine
end

