-- ==== Sys2Proof/Laws/Ops.lean ====
section
/-! SUPPORT. One lemma per shared operation: everything the bounds check, the register ranges, the key
scan, the flags, the decimal digits and the timers can do. -/

namespace Sys2Proof.Machine

/-! ### The bounds check (R58) -/

/-- A range inside memory: the instruction's result. -/
theorem withinMemory_inside {len : Nat} {s : State} (h : len = 0 ∨ s.i.toNat + len ≤ 0x1000)
    (done : State) : withinMemory len s done = .next done :=
  if_neg (by omega)

/-- A range that ends above 0xFFF: the halt, and nothing of the result. -/
theorem withinMemory_outside {len : Nat} {s : State} (h : 0 < len ∧ 0x1000 < s.i.toNat + len)
    (done : State) : withinMemory len s done = .next (s.setStatus .halt .memoryOutOfBounds) :=
  if_pos (by omega)

/-- Everything the bounds check can do. -/
theorem withinMemory_cases {len : Nat} {s done t : State} (h : withinMemory len s done = .next t) :
    (0 < len ∧ 0x1000 < s.i.toNat + len ∧ t = s.setStatus .halt .memoryOutOfBounds) ∨
      ((len = 0 ∨ s.i.toNat + len ≤ 0x1000) ∧ t = done) := by
  by_cases hin : 0 < len ∧ 0x1000 < s.i.toNat + len
  · rw [withinMemory_outside hin] at h
    exact .inl ⟨hin.1, hin.2, by cases h; rfl⟩
  · rw [withinMemory_inside (by omega)] at h
    exact .inr ⟨by omega, by cases h; rfl⟩

/-- Halting writes `MODE` and `CAUSE` and nothing else (R171). -/
theorem halt_eq (c : Cause) (s : State) : halt c s = .next (s.setStatus .halt c) := rfl

/-! ### Register ranges (R144, R145) -/

/-- The range of `x` holds the registers up to and including `V[x]`. -/
@[simp] theorem mem_regsUpTo {x r : Reg} : r ∈ regsUpTo x ↔ r ≤ x := by simp [regsUpTo]

/-- The range holds no register twice. -/
theorem regsUpTo_nodup (x : Reg) : (regsUpTo x).Nodup := (List.nodup_finRange 16).filter _

/-- The range has `x + 1` registers. -/
@[simp] theorem regsUpTo_length : ∀ x : Reg, (regsUpTo x).length = x.val + 1 := by decide

/-- Entry `r` of the range is `V[r]`. -/
theorem regsUpTo_getElem? : ∀ x r : Reg, r ≤ x → (regsUpTo x)[r.val]? = some r := by decide

/-- The byte `Fx55` stores at offset `r`. -/
theorem regsUpTo_map_getD (f : Reg → Byte) {x r : Reg} (h : r ≤ x) :
    ((regsUpTo x).map f).getD r.val 0 = f r := by
  simp [List.getD, regsUpTo_getElem? x r h]

/-- Loading a list of registers writes those registers and nothing else. -/
theorem State.loadRegsFrom_spec (rs : List Reg) (s : State) (base : Nat) (hnd : rs.Nodup) :
    (∀ r, (s.loadRegsFrom base rs).reg r =
      if r ∈ rs then s.readByte (base + r.val) else s.reg r) ∧
    s.loadRegsFrom base rs = { s with v := (s.loadRegsFrom base rs).v } := by
  induction rs generalizing s with
  | nil => exact ⟨fun r => by simp [State.loadRegsFrom], rfl⟩
  | cons k rs ih =>
    obtain ⟨hnot, hnd⟩ := List.nodup_cons.1 hnd
    obtain ⟨hreg, hrest⟩ := ih (s.setReg k (s.readByte (base + k.val))) hnd
    constructor
    · intro r
      rw [State.loadRegsFrom, hreg]
      by_cases hk : r = k
      · subst hk; simp [hnot]
      · simp [hk, State.reg_setReg]
    · rw [State.loadRegsFrom, hrest]
      rfl

/-! ### Keys (R164) -/

/-- No key is found exactly when the sample is zero. -/
theorem State.lowestKey_eq_none (s : State) : s.lowestKey = none ↔ s.io.keys = 0 := by
  simp only [State.lowestKey, List.find?_eq_none, List.mem_finRange, forall_const]
  constructor
  · intro h
    apply BitVec.eq_of_getLsbD_eq
    intro k hk
    simpa [State.keyDown] using h ⟨k, hk⟩
  · intro h k
    simp [State.keyDown, h]

/-- The key found is the least one down. -/
theorem State.lowestKey_eq_some (s : State) (k : Fin 16) :
    s.lowestKey = some k ↔ s.keyDown k = true ∧ ∀ j < k, s.keyDown j = false := by
  simp only [State.lowestKey, List.find?_eq_some_iff_getElem, List.getElem_finRange]
  constructor
  · rintro ⟨hk, n, hn, rfl, hj⟩
    refine ⟨hk, fun j hlt => ?_⟩
    simpa using hj j.val hlt
  · rintro ⟨hk, hj⟩
    refine ⟨hk, k.val, by simp, by simp, fun j hlt => ?_⟩
    simpa using hj ⟨j, by omega⟩ hlt

/-! ### Fields and flags as numbers -/

/-- The low nibble is the value modulo 16 (R142, R162). -/
theorem lowNibble_val (b : Byte) : (lowNibble b).val = b.toNat % 16 := by
  simp [lowNibble]

/-- The zero-extended address has the value of the field (R73). -/
@[simp] theorem addressOf_toNat (nnn : Addr) : (addressOf nnn).toNat = nnn.toNat := by
  have := nnn.isLt
  simp only [addressOf, BitVec.toNat_setWidth]
  omega

/-- The glyph address does not wrap: the font lies below 0x200 (R142). -/
theorem glyphAddress_toNat (d : Fin 16) :
    (glyphAddress d).toNat = Config.fontBase.val + 5 * d.val := by
  have := Config.fontBase.isLt
  have := d.isLt
  simp only [glyphAddress, Config.glyphBytes, BitVec.toNat_ofNat]
  omega

/-- The bit a right shift drops is the value modulo 2 (R130). -/
theorem flagByte_lowBit_toNat (b : Byte) : (flagByte (lowBit b)).toNat = b.toNat % 2 := by
  simp only [flagByte, lowBit, BitVec.getLsbD, Nat.testBit_zero, decide_eq_true_eq]
  split <;> simp <;> omega

/-- The bit a left shift drops is the value divided by 128 (R132). -/
theorem flagByte_highBit_toNat (b : Byte) : (flagByte (highBit b)).toNat = b.toNat / 128 := by
  have := b.isLt
  simp only [flagByte, highBit, BitVec.getLsbD, Nat.testBit_eq_decide_div_mod_eq,
    decide_eq_true_eq]
  split <;> simp <;> omega

/-- A flag value is 0 or 1 (R22). -/
theorem flagByte_zero_or_one (c : Bool) : flagByte c = 0 ∨ flagByte c = 1 := by
  cases c <;> simp [flagByte]

/-- A flag value is 1 exactly when the condition holds. -/
@[simp] theorem flagByte_eq_one (c : Bool) : flagByte c = 1#8 ↔ c = true := by
  cases c <;> simp [flagByte]

/-! ### Decimal digits (R143) -/

/-- There are three digits. -/
@[simp] theorem decimalDigits_length (b : Byte) : (decimalDigits b).length = 3 := rfl

/-- The three digits are decimal digits of the byte: bounded, and together its value. -/
theorem decimalDigits_spec (b : Byte) :
    100 * ((decimalDigits b).getD 0 0).toNat + 10 * ((decimalDigits b).getD 1 0).toNat +
      ((decimalDigits b).getD 2 0).toNat = b.toNat ∧
    ((decimalDigits b).getD 0 0).toNat ≤ 2 ∧ ((decimalDigits b).getD 1 0).toNat ≤ 9 ∧
    ((decimalDigits b).getD 2 0).toNat ≤ 9 := by
  have := b.isLt
  simp only [decimalDigits, List.getD_cons_zero, List.getD_cons_succ, BitVec.toNat_ofNat]
  omega

/-! ### Timers (R185) -/

/-- A tick takes a timer down by one, not below 0. -/
theorem timerDown_toNat (b : Byte) : (timerDown b).toNat = b.toNat - 1 := by
  unfold timerDown
  split
  next h => simp [h]
  next h =>
    have : b.toNat ≠ 0 := fun e => h (BitVec.eq_of_toNat_eq (by simpa using e))
    have := b.isLt
    rw [BitVec.toNat_sub]
    simp
    omega

/-- `n` ticks take a timer down by `n`, not below 0. -/
theorem timerAfter_toNat (n : Nat) (b : Byte) : (timerAfter n b).toNat = b.toNat - n := by
  have := b.isLt
  simp only [timerAfter, BitVec.toNat_ofNat]
  omega

end Sys2Proof.Machine
end

