-- ==== Sys2Proof/Laws/Cycle.lean ====
section
/-! SUPPORT. What a cycle, an event and a step can do, said once: later proofs take these cases
instead of unfolding the machine. -/

namespace Sys2Proof.Machine

/-- The record `Io` as a cycle begins. -/
def Io.begun (r : Io) (keys : BitVec 16) (rnd : Byte) : Io :=
  { r with keys := keys, rnd := rnd, report := none, boot := .cycling }

/-- The word at an address depends on memory alone (R52). -/
theorem State.wordAt_of_mem {s t : State} (h : t.mem = s.mem) (a : Nat) : t.wordAt a = s.wordAt a := by
  simp only [State.wordAt, State.readByte, h]

/-- A halted core ignores a cycle (R90). -/
theorem cycle_halted {s : State} (h : s.mode = .halt) (keys : BitVec 16) (rnd : Byte) :
    cycle keys rnd s = .next (s.setIo (s.io.begun keys rnd)) :=
  if_pos h

/-- A fetch past 0xFFE halts with `PC` unchanged (R91). -/
theorem cycle_fetch_past_end {s : State} (h : s.mode ≠ .halt) (hpc : 0xFFE < s.pc.toNat)
    (keys : BitVec 16) (rnd : Byte) :
    cycle keys rnd s =
      .next ((s.setIo (s.io.begun keys rnd)).setStatus .halt .memoryOutOfBounds) :=
  (if_neg h).trans (if_pos hpc)

/-- A cycle whose word is an instruction executes it with `PC` advanced and `MODE = RUN` (R90). -/
theorem cycle_decoded {s : State} {i : Instr} (h : s.mode ≠ .halt) (hpc : s.pc.toNat ≤ 0xFFE)
    (hd : decodeWord (s.wordAt s.pc.toNat) = some i) (keys : BitVec 16) (rnd : Byte) :
    cycle keys rnd s = exec i (s.setIo (s.io.begun keys rnd)).advance := by
  have hd' : decodeWord ((s.beginCycle keys rnd).wordAt (s.beginCycle keys rnd).pc.toNat) =
      some i := hd
  refine (if_neg h).trans ((if_neg (by simpa using hpc)).trans ?_)
  rw [decodeAndExecute, hd']
  rfl

/-- A cycle whose word is unknown reports it and goes on (R94). -/
theorem cycle_unknown {s : State} (h : s.mode ≠ .halt) (hpc : s.pc.toNat ≤ 0xFFE)
    (hd : decodeWord (s.wordAt s.pc.toNat) = none) (keys : BitVec 16) (rnd : Byte) :
    cycle keys rnd s = .next ((s.setIo (s.io.begun keys rnd)).advance.setReport
      (some (.unknownOpcode (s.wordAt s.pc.toNat) s.pc))) := by
  have hd' : decodeWord ((s.beginCycle keys rnd).wordAt (s.beginCycle keys rnd).pc.toNat) =
      none := hd
  refine (if_neg h).trans ((if_neg (by simpa using hpc)).trans ?_)
  rw [decodeAndExecute, hd']
  rfl

/-- Everything a cycle can do. -/
theorem cycle_cases {s t : State} {keys : BitVec 16} {rnd : Byte}
    (h : cycle keys rnd s = .next t) :
    (s.mode = .halt ∧ t = s.setIo (s.io.begun keys rnd)) ∨
    (s.mode ≠ .halt ∧ 0xFFE < s.pc.toNat ∧
      t = (s.setIo (s.io.begun keys rnd)).setStatus .halt .memoryOutOfBounds) ∨
    (s.mode ≠ .halt ∧ s.pc.toNat ≤ 0xFFE ∧ decodeWord (s.wordAt s.pc.toNat) = none ∧
      t = (s.setIo (s.io.begun keys rnd)).advance.setReport
        (some (.unknownOpcode (s.wordAt s.pc.toNat) s.pc))) ∨
    (s.mode ≠ .halt ∧ s.pc.toNat ≤ 0xFFE ∧ ∃ i, decodeWord (s.wordAt s.pc.toNat) = some i ∧
      exec i (s.setIo (s.io.begun keys rnd)).advance = .next t) := by
  by_cases hm : s.mode = .halt
  · rw [cycle_halted hm] at h; cases h; exact .inl ⟨hm, rfl⟩
  by_cases hpc : 0xFFE < s.pc.toNat
  · rw [cycle_fetch_past_end hm hpc] at h; cases h; exact .inr (.inl ⟨hm, hpc, rfl⟩)
  have hpc : s.pc.toNat ≤ 0xFFE := by omega
  cases hd : decodeWord (s.wordAt s.pc.toNat) with
  | none =>
    rw [cycle_unknown hm hpc hd] at h
    cases h
    exact .inr (.inr (.inl ⟨hm, hpc, rfl, rfl⟩))
  | some i => exact .inr (.inr (.inr ⟨hm, hpc, i, rfl, by rwa [cycle_decoded hm hpc hd] at h⟩))

/-- A `CYCLE` event runs where no `LOAD` has failed. -/
theorem hostCycle_runs {s : State} (h : s.io.boot ≠ .loadFailed) (keys : BitVec 16) (rnd : Byte) :
    hostCycle keys rnd s = cycle keys rnd s :=
  if_neg h

/-- A `CYCLE` event after a failed `LOAD` is refused (R202). -/
theorem hostCycle_refused {s : State} (h : s.io.boot = .loadFailed) (keys : BitVec 16)
    (rnd : Byte) : hostCycle keys rnd s = .refused .cycleAfterFailedLoad :=
  if_pos h

/-- A `CYCLE` event that answers a next state is a cycle, and no `LOAD` has failed. -/
theorem hostCycle_cases {s t : State} {keys : BitVec 16} {rnd : Byte}
    (h : hostCycle keys rnd s = .next t) : s.io.boot ≠ .loadFailed ∧ cycle keys rnd s = .next t := by
  by_cases hb : s.io.boot = .loadFailed
  · rw [hostCycle_refused hb] at h; cases h
  · exact ⟨hb, by rwa [hostCycle_runs hb] at h⟩

/-- A step takes the oldest pending event. -/
theorem step_pending {s : State} {e : Event} {rest : List Event} (h : s.io.pending = e :: rest) :
    step s = event e (s.setIo { s.io with pending := rest }) := by
  rw [step, nextEvent, h]

/-- With nothing pending a step is a free number of ticks and a `CYCLE` event on free inputs. -/
theorem step_free {s : State} (h : s.io.pending = []) :
    step s = hostCycle (Config.freeKeys s.io.draws) (Config.freeRnd s.io.draws)
      ((s.ticks (Config.freeTicks s.io.draws)).setIo { s.io with draws := s.io.draws + 1 }) := by
  rw [step, nextEvent, h]
  rfl

/-- A run whose first step answers a next state goes on from it. -/
theorem run_succ {s t : State} (h : step s = .next t) (k : Nat) :
    Host.Core.run Sys2Proof.core (k + 1) s = Host.Core.run Sys2Proof.core k t := by
  have h' : Sys2Proof.core.step s = .next t := h
  simp only [Host.Core.run, h']

/-- The one `LOAD` of an image that fits copies it (R60). -/
theorem hostLoad_fits {bytes : List Byte} {s : State} (hb : s.io.boot = .afterReset)
    (hl : bytes.length ≤ 3584) :
    hostLoad bytes 0x200 s = .next ((s.setMem (s.mem.load 0x200 bytes)).setIo
      { s.io with report := none, boot := .loaded }) :=
  (if_neg (by simp [hb])).trans (if_neg (by simp only [Config.memSize]; omega))

/-- The one `LOAD` of an image that does not fit is answered `RomTooLarge` and ends the session
(R176, R202). -/
theorem hostLoad_tooLarge {bytes : List Byte} {s : State} (hb : s.io.boot = .afterReset)
    (hl : 3584 < bytes.length) :
    hostLoad bytes 0x200 s =
      .next (s.setIo { s.io with report := some .romTooLarge, boot := .loadFailed }) :=
  (if_neg (by simp [hb])).trans (if_pos (by simp only [Config.memSize]; omega))

/-- Everything a `LOAD` can do. -/
theorem hostLoad_cases {bytes : List Byte} {origin : Nat} {s t : State}
    (h : hostLoad bytes origin s = .next t) :
    s.io.boot = .afterReset ∧ origin = 0x200 ∧
      ((0x1000 < origin + bytes.length ∧ t = s.setIo
          { s.io with report := some .romTooLarge, boot := .loadFailed }) ∨
        (origin + bytes.length ≤ 0x1000 ∧ t = (s.setMem (s.mem.load origin bytes)).setIo
          { s.io with report := none, boot := .loaded })) := by
  unfold hostLoad at h
  split at h
  · cases h
  next hb =>
    rw [not_or, not_not, not_not] at hb
    refine ⟨hb.1, hb.2, ?_⟩
    split at h
    next hl => cases h; exact .inl ⟨hl, rfl⟩
    next hl => cases h; exact .inr ⟨by simpa using hl, rfl⟩

end Sys2Proof.Machine
end

