-- ==== Sys2Proof/Laws/Decode.lean ====
section
/-! SUPPORT. The fields of an encoded word are the operands put in, and the row of the opcode map that
matches a word is the only one that does. -/

namespace Sys2Proof

/-! ### Fields of a formatted word (R71, R72) -/

@[simp] theorem fieldNNN_formatNNN (f : Nibble) (nnn : Addr) : fieldNNN (formatNNN f nnn) = nnn := by
  apply BitVec.eq_of_getLsbD_eq
  intro k hk
  simp only [fieldNNN, formatNNN, BitVec.getLsbD_extractLsb', BitVec.getLsbD_append]
  simp [hk]

@[simp] theorem fieldX_formatXNN (f : Nibble) (x : Reg) (nn : Byte) :
    fieldX (formatXNN f x nn) = x := by
  have : (formatXNN f x nn).extractLsb' 8 4 = BitVec.ofFin x := by
    apply BitVec.eq_of_getLsbD_eq
    intro k hk
    simp only [formatXNN, BitVec.getLsbD_extractLsb', BitVec.getLsbD_append]
    simp [hk]
  simp [fieldX, this]

@[simp] theorem fieldNN_formatXNN (f : Nibble) (x : Reg) (nn : Byte) :
    fieldNN (formatXNN f x nn) = nn := by
  apply BitVec.eq_of_getLsbD_eq
  intro k hk
  simp only [fieldNN, formatXNN, BitVec.getLsbD_extractLsb', BitVec.getLsbD_append]
  simp [hk]

@[simp] theorem fieldX_formatXYN (f : Nibble) (x y : Reg) (n : Nibble) :
    fieldX (formatXYN f x y n) = x := by
  have : (formatXYN f x y n).extractLsb' 8 4 = BitVec.ofFin x := by
    apply BitVec.eq_of_getLsbD_eq
    intro k hk
    simp only [formatXYN, BitVec.getLsbD_extractLsb', BitVec.getLsbD_append]
    simp [hk, show ¬ 8 + k < 4 by omega, show 8 + k - 4 - 4 = k by omega,
      show ¬ 8 + k - 4 < 4 by omega]
  simp [fieldX, this]

@[simp] theorem fieldY_formatXYN (f : Nibble) (x y : Reg) (n : Nibble) :
    fieldY (formatXYN f x y n) = y := by
  have : (formatXYN f x y n).extractLsb' 4 4 = BitVec.ofFin y := by
    apply BitVec.eq_of_getLsbD_eq
    intro k hk
    simp only [formatXYN, BitVec.getLsbD_extractLsb', BitVec.getLsbD_append]
    simp [hk]
  simp [fieldY, this]

@[simp] theorem fieldN_formatXYN (f : Nibble) (x y : Reg) (n : Nibble) :
    fieldN (formatXYN f x y n) = n.toNat := by
  have : (formatXYN f x y n).extractLsb' 0 4 = n := by
    apply BitVec.eq_of_getLsbD_eq
    intro k hk
    simp only [formatXYN, BitVec.getLsbD_extractLsb', BitVec.getLsbD_append]
    simp [hk]
  simp [fieldN, this]

/-! ### A word is the format of its fields (R71) -/

theorem formatNNN_fields (op : Word) : formatNNN (op.extractLsb' 12 4) (fieldNNN op) = op := by
  apply BitVec.eq_of_getLsbD_eq
  intro k hk
  simp only [formatNNN, fieldNNN, BitVec.getLsbD_append, BitVec.getLsbD_extractLsb']
  interval_cases k <;> simp

theorem formatXNN_fields (op : Word) :
    formatXNN (op.extractLsb' 12 4) (fieldX op) (fieldNN op) = op := by
  apply BitVec.eq_of_getLsbD_eq
  intro k hk
  simp only [formatXNN, fieldX, fieldNN, BitVec.ofFin_toFin, BitVec.getLsbD_append,
    BitVec.getLsbD_extractLsb']
  interval_cases k <;> simp

theorem formatXYN_fields (op : Word) :
    formatXYN (op.extractLsb' 12 4) (fieldX op) (fieldY op) (op.extractLsb' 0 4) = op := by
  apply BitVec.eq_of_getLsbD_eq
  intro k hk
  simp only [formatXYN, fieldX, fieldY, BitVec.ofFin_toFin, BitVec.getLsbD_append,
    BitVec.getLsbD_extractLsb']
  interval_cases k <;> simp

/-! ### One row per word (R75) -/

/-- In a list of rows no two of which match one word, a row that matches is the one found. -/
theorem find_of_matches {rows : List OpcodeRow} {op : Word}
    (hd : rows.Pairwise (fun r r' => ¬ (r.matches op = true ∧ r'.matches op = true)))
    {r : OpcodeRow} (hr : r ∈ rows) (hm : r.matches op = true) :
    rows.find? (·.matches op) = some r := by
  induction rows with
  | nil => simp at hr
  | cons a rows ih =>
    obtain ⟨ha, hd⟩ := List.pairwise_cons.1 hd
    obtain rfl | hr := List.mem_cons.1 hr
    · simp [hm]
    · have : ¬ a.matches op = true := fun h => ha r hr ⟨h, hm⟩
      simpa [List.find?_cons, this] using ih hd hr

/-- Two rows whose matches differ on a bit both masks test never match one word. -/
theorem not_both_match {r r' : OpcodeRow}
    (h : r.bits &&& r'.mask ≠ r'.bits &&& r.mask) (op : Word) :
    ¬ (r.matches op = true ∧ r'.matches op = true) := by
  rintro ⟨h1, h2⟩
  simp only [OpcodeRow.matches, beq_iff_eq] at h1 h2
  apply h
  rw [← h1, ← h2, BitVec.and_assoc, BitVec.and_assoc, BitVec.and_comm r.mask]

/-- Any two rows of the opcode map differ on a bit both masks test. -/
theorem opcodeRows_differ :
    opcodeRows.Pairwise (fun r r' => r.bits &&& r'.mask ≠ r'.bits &&& r.mask) := by decide

/-- A row of the opcode map that matches a word decodes it. -/
theorem decodeWord_of_row {r : OpcodeRow} {op : Word} (hr : r ∈ opcodeRows)
    (hm : r.matches op = true) : decodeWord op = some (r.build op) := by
  rw [decodeWord, find_of_matches (opcodeRows_differ.imp fun h => not_both_match h op) hr hm]
  rfl

/-- A word decodes only by a row of the opcode map that matches it. -/
theorem row_of_decodeWord {op : Word} {i : Instr} (h : decodeWord op = some i) :
    ∃ r ∈ opcodeRows, r.matches op = true ∧ i = r.build op := by
  rw [decodeWord, Option.map_eq_some_iff] at h
  obtain ⟨r, hr, hi⟩ := h
  exact ⟨r, List.mem_of_find?_eq_some hr, List.find?_some (p := (OpcodeRow.matches · op)) hr, hi.symm⟩

/-- No row matches, no instruction (R76). -/
theorem decodeWord_eq_none {op : Word} :
    decodeWord op = none ↔ ∀ r ∈ opcodeRows, r.matches op = false := by
  simp [decodeWord]

/-- A word that differs from every row on a bit tested both here and by the row is unknown. -/
theorem decodeWord_eq_none_of_differ {op mask bits : Word} (hop : op &&& mask = bits)
    (h : ∀ r ∈ opcodeRows, bits &&& r.mask ≠ r.bits &&& mask) : decodeWord op = none := by
  rw [decodeWord_eq_none]
  intro r hr
  rw [← Bool.not_eq_true]
  exact fun hm => not_both_match (r := ⟨mask, bits, r.build⟩) (h r hr) op ⟨beq_iff_eq.2 hop, hm⟩

/-! ### The masks on a formatted word -/

theorem formatNNN_family (f : Nibble) (nnn : Addr) :
    formatNNN f nnn &&& 0xF000 = formatNNN f 0 := by
  apply BitVec.eq_of_getLsbD_eq
  intro k hk
  simp only [formatNNN, BitVec.getLsbD_and, BitVec.getLsbD_append]
  interval_cases k <;> simp

theorem formatXNN_family (f : Nibble) (x : Reg) (nn : Byte) :
    formatXNN f x nn &&& 0xF000 = formatNNN f 0 := by
  apply BitVec.eq_of_getLsbD_eq
  intro k hk
  simp only [formatXNN, formatNNN, BitVec.getLsbD_and, BitVec.getLsbD_append]
  interval_cases k <;> simp

theorem formatXNN_familyAndByte (f : Nibble) (x : Reg) (nn : Byte) :
    formatXNN f x nn &&& 0xF0FF = formatXNN f 0 nn := by
  apply BitVec.eq_of_getLsbD_eq
  intro k hk
  simp only [formatXNN, BitVec.getLsbD_and, BitVec.getLsbD_append]
  interval_cases k <;> simp [BitVec.getLsbD] <;> exact fun _ => by decide

theorem formatXYN_family (f : Nibble) (x y : Reg) (n : Nibble) :
    formatXYN f x y n &&& 0xF000 = formatNNN f 0 := by
  apply BitVec.eq_of_getLsbD_eq
  intro k hk
  simp only [formatXYN, formatNNN, BitVec.getLsbD_and, BitVec.getLsbD_append]
  interval_cases k <;> simp

theorem formatXYN_familyAndDigit (f : Nibble) (x y : Reg) (n : Nibble) :
    formatXYN f x y n &&& 0xF00F = formatXYN f 0 0 n := by
  apply BitVec.eq_of_getLsbD_eq
  intro k hk
  simp only [formatXYN, BitVec.getLsbD_and, BitVec.getLsbD_append]
  interval_cases k <;> simp [BitVec.getLsbD] <;> exact fun _ => by decide

/-! ### Decoding a formatted word -/

/-- A family decided by its digit alone, with an address. -/
theorem decodeWord_formatNNN {bits : Word} {build : Word → Instr} (f : Nibble)
    (hr : ⟨0xF000, bits, build⟩ ∈ opcodeRows) (hb : formatNNN f 0 = bits) (nnn : Addr) :
    decodeWord (formatNNN f nnn) = some (build (formatNNN f nnn)) :=
  decodeWord_of_row hr (beq_iff_eq.2 ((formatNNN_family ..).trans hb))

/-- A family decided by its digit alone, with a register and a byte. -/
theorem decodeWord_formatXNN {bits : Word} {build : Word → Instr} (f : Nibble)
    (hr : ⟨0xF000, bits, build⟩ ∈ opcodeRows) (hb : formatNNN f 0 = bits) (x : Reg) (nn : Byte) :
    decodeWord (formatXNN f x nn) = some (build (formatXNN f x nn)) :=
  decodeWord_of_row hr (beq_iff_eq.2 ((formatXNN_family ..).trans hb))

/-- A family decided by its low byte. -/
theorem decodeWord_formatXSS {bits : Word} {build : Word → Instr} (f : Nibble) (nn : Byte)
    (hr : ⟨0xF0FF, bits, build⟩ ∈ opcodeRows) (hb : formatXNN f 0 nn = bits) (x : Reg) :
    decodeWord (formatXNN f x nn) = some (build (formatXNN f x nn)) :=
  decodeWord_of_row hr (beq_iff_eq.2 ((formatXNN_familyAndByte ..).trans hb))

/-- A family decided by its digit alone, with two registers and a digit. -/
theorem decodeWord_formatXYN {bits : Word} {build : Word → Instr} (f : Nibble)
    (hr : ⟨0xF000, bits, build⟩ ∈ opcodeRows) (hb : formatNNN f 0 = bits) (x y : Reg)
    (n : Nibble) : decodeWord (formatXYN f x y n) = some (build (formatXYN f x y n)) :=
  decodeWord_of_row hr (beq_iff_eq.2 ((formatXYN_family ..).trans hb))

/-- A family decided by its low digit. -/
theorem decodeWord_formatXYS {bits : Word} {build : Word → Instr} (f n : Nibble)
    (hr : ⟨0xF00F, bits, build⟩ ∈ opcodeRows) (hb : formatXYN f 0 0 n = bits) (x y : Reg) :
    decodeWord (formatXYN f x y n) = some (build (formatXYN f x y n)) :=
  decodeWord_of_row hr (beq_iff_eq.2 ((formatXYN_familyAndDigit ..).trans hb))

end Sys2Proof
end

