-- ==== Sys2Proof/Laws/Display.lean ====
section
/-! SUPPORT. The framebuffer and the sprite: a flip inverts one pixel, and drawing a sprite XORs the
set of its pixels onto the framebuffer and hits exactly where the two sets meet (R152, R153). -/

namespace Sys2Proof.Machine

/-! ### Pixels -/

/-- A flip inverts the pixel flipped and leaves every other alone. -/
theorem Framebuffer.pixel_flip (fb : Framebuffer) (x px : Fin 64) (y py : Fin 32) :
    (fb.flip x y).pixel px py =
      if px = x ∧ py = y then !fb.pixel px py else fb.pixel px py := by
  have hx := px.isLt
  by_cases hy : py = y
  · subst hy
    by_cases h : px = x
    · subst h
      simp [Framebuffer.pixel, Framebuffer.flip]
    · have hne : px.val ≠ x.val := fun e => h (Fin.ext e)
      simp only [Framebuffer.pixel, Framebuffer.flip, Fin.getElem_fin, Vector.getElem_set_self,
        BitVec.getLsbD_xor, BitVec.getLsbD_shiftLeft, h, false_and, if_false]
      by_cases hl : px.val < x.val
      · simp [hl]
      · have : px.val - x.val ≠ 0 := by omega
        simp [BitVec.getLsbD_one, this]
  · have hne : y.val ≠ py.val := fun e => hy (Fin.ext e.symm)
    simp [Framebuffer.pixel, Framebuffer.flip, hy, hne]

/-- Every pixel of the cleared framebuffer is off (R150). -/
@[simp] theorem Framebuffer.pixel_clear (px : Fin 64) (py : Fin 32) :
    Framebuffer.clear.pixel px py = false := by
  simp [Framebuffer.pixel, Framebuffer.clear]

/-! ### A sprite as a list of points -/

/-- Points drawn one after another: each inverts its pixel, and hits if the pixel was on. -/
def drawPoints : List (Fin 64 × Fin 32) → Canvas → Canvas
  | [], c => c
  | p :: ps, c => drawPoints ps (drawPixel p.1 p.2 true c)

/-- The points of the 1 bits of a sprite row. -/
def rowPoints (b : Byte) (x0 : Nat) (py : Fin 32) (ks : List Nat) : List (Fin 64 × Fin 32) :=
  (ks.filter (fun k => b.getLsbD (7 - k))).map (fun k => (Fin.ofNat 64 (x0 + k), py))

/-- The points of the 1 bits of the sprite rows from screen row `y` downward. -/
def spritePoints (x0 : Nat) : Nat → List Byte → List (Fin 64 × Fin 32)
  | _, [] => []
  | y, b :: bs => rowPoints b x0 (Fin.ofNat 32 y) (List.range 8) ++ spritePoints x0 (y + 1) bs

theorem drawPoints_append (ps qs : List (Fin 64 × Fin 32)) (c : Canvas) :
    drawPoints (ps ++ qs) c = drawPoints qs (drawPoints ps c) := by
  induction ps generalizing c with
  | nil => rfl
  | cons p ps ih => exact ih _

theorem drawColumns_eq_drawPoints (b : Byte) (x0 : Nat) (py : Fin 32) (ks : List Nat)
    (c : Canvas) : drawColumns b x0 py ks c = drawPoints (rowPoints b x0 py ks) c := by
  induction ks generalizing c with
  | nil => rfl
  | cons k ks ih =>
    by_cases h : b.getLsbD (7 - k) = true
    · simp [drawColumns, ih, rowPoints, h, drawPoints]
    · simp [drawColumns, ih, rowPoints, h, drawPixel]

/-- Drawing a sprite is drawing its points. -/
theorem drawRows_eq_drawPoints (x0 y : Nat) (bs : List Byte) (c : Canvas) :
    drawRows x0 y bs c = drawPoints (spritePoints x0 y bs) c := by
  induction bs generalizing y c with
  | nil => rfl
  | cons b bs ih =>
    rw [drawRows, spritePoints, drawPoints_append, ih, drawRow, drawColumns_eq_drawPoints]

/-- Drawing distinct points: the framebuffer becomes the symmetric difference, and the draw hits
exactly where a point was on before it (R153). -/
theorem drawPoints_spec {ps : List (Fin 64 × Fin 32)} (hps : ps.Nodup) (c : Canvas) :
    (∀ px py, (drawPoints ps c).1.pixel px py =
      (c.1.pixel px py != decide ((px, py) ∈ ps))) ∧
    ((drawPoints ps c).2 = true ↔ c.2 = true ∨ ∃ p ∈ ps, c.1.pixel p.1 p.2 = true) := by
  induction ps generalizing c with
  | nil => simp [drawPoints]
  | cons p ps ih =>
    obtain ⟨hnot, hnd⟩ := List.nodup_cons.1 hps
    obtain ⟨hpix, hhit⟩ := ih hnd (drawPixel p.1 p.2 true c)
    constructor
    · intro px py
      rw [drawPoints, hpix]
      simp only [drawPixel, if_true, Framebuffer.pixel_flip, List.mem_cons]
      by_cases h : (px, py) = p
      · subst h
        simp [hnot]
      · have h' : ¬ (px = p.1 ∧ py = p.2) := fun e => h (Prod.ext e.1 e.2)
        simp [h, h']
    · have : (∃ q ∈ ps, (if q.1 = p.1 ∧ q.2 = p.2 then !c.1.pixel q.1 q.2
          else c.1.pixel q.1 q.2) = true) ↔ ∃ q ∈ ps, c.1.pixel q.1 q.2 = true := by
        refine exists_congr fun q => and_congr_right fun hq => ?_
        have : ¬ (q.1 = p.1 ∧ q.2 = p.2) := fun e => hnot (by
          rwa [← (Prod.ext e.1 e.2 : q = p)])
        simp only [if_neg this]
      rw [drawPoints, hhit]
      simp only [drawPixel, if_true, Bool.or_eq_true, List.mem_cons, exists_eq_or_imp,
        Framebuffer.pixel_flip, or_assoc, this]

/-! ### The points of a sprite -/

theorem mem_rowPoints {b : Byte} {x0 : Nat} {py : Fin 32} {px : Fin 64} {qy : Fin 32} :
    (px, qy) ∈ rowPoints b x0 py (List.range 8) ↔
      ∃ k < 8, b.getLsbD (7 - k) = true ∧ px = Fin.ofNat 64 (x0 + k) ∧ qy = py := by
  simp only [rowPoints, List.mem_map, List.mem_filter, List.mem_range, Prod.mk.injEq]
  constructor
  · rintro ⟨k, ⟨hk, hb⟩, rfl, rfl⟩; exact ⟨k, hk, hb, rfl, rfl⟩
  · rintro ⟨k, hk, hb, rfl, rfl⟩; exact ⟨k, ⟨hk, hb⟩, rfl, rfl⟩

theorem mem_spritePoints {x0 y : Nat} {bs : List Byte} {px : Fin 64} {py : Fin 32} :
    (px, py) ∈ spritePoints x0 y bs ↔ ∃ j, ∃ h : j < bs.length, ∃ k < 8,
      bs[j].getLsbD (7 - k) = true ∧ px = Fin.ofNat 64 (x0 + k) ∧ py = Fin.ofNat 32 (y + j) := by
  induction bs generalizing y with
  | nil => simp [spritePoints]
  | cons b bs ih =>
    rw [spritePoints, List.mem_append, mem_rowPoints, ih]
    constructor
    · rintro (⟨k, hk, hb, hx, hy⟩ | ⟨j, hj, k, hk, hb, hx, hy⟩)
      · exact ⟨0, by simp, k, hk, hb, hx, hy⟩
      · exact ⟨j + 1, by simpa using hj, k, hk, hb, hx, by rw [hy]; congr 1; omega⟩
    · rintro ⟨j, hj, k, hk, hb, hx, hy⟩
      cases j with
      | zero => exact .inl ⟨k, hk, hb, hx, hy⟩
      | succ j =>
        exact .inr ⟨j, by simpa using hj, k, hk, hb, hx, by rw [hy]; congr 1; omega⟩

/-- Wrapping never folds a sprite of at most 32 rows onto itself (R152, corner case b). -/
theorem spritePoints_nodup {x0 y : Nat} {bs : List Byte} (h : bs.length ≤ 32) :
    (spritePoints x0 y bs).Nodup := by
  induction bs generalizing y with
  | nil => simp [spritePoints]
  | cons b bs ih =>
    simp only [List.length_cons] at h
    refine List.nodup_append.2 ⟨?_, ih (by omega), ?_⟩
    · refine (List.nodup_map_iff_inj_on (List.nodup_range.filter _)).2 ?_
      intro k hk k' hk' e
      have h1 := List.mem_range.1 (List.mem_filter.1 hk).1
      have h2 := List.mem_range.1 (List.mem_filter.1 hk').1
      have := congrArg (fun p => p.1.val) e
      simp only [Fin.val_ofNat] at this
      omega
    · rintro ⟨px, py⟩ hp ⟨qx, qy⟩ hq e
      rw [← e] at hq
      obtain ⟨_, _, _, _, rfl⟩ := mem_rowPoints.1 hp
      obtain ⟨j, hj, _, _, _, _, hy⟩ := mem_spritePoints.1 hq
      have := congrArg Fin.val hy
      simp only [Fin.val_ofNat] at this
      omega

/-- The points of the sprite at `I` are the pixels it covers. -/
theorem mem_spritePoints_iff_covers (s : State) (x y : Reg) {n : Nat} (hn : n ≤ 32) (px : Fin 64)
    (py : Fin 32) :
    (px, py) ∈ spritePoints ((s.reg x).toNat % 64) ((s.reg y).toNat % 32) (s.sprite n) ↔
      s.spriteCovers x y n px py = true := by
  have hpx := px.isLt
  have hpy := py.isLt
  rw [mem_spritePoints]
  simp only [State.spriteCovers, Bool.and_eq_true, decide_eq_true_eq]
  constructor
  · rintro ⟨j, hj, k, hk, hb, hx, hy⟩
    have hx := congrArg Fin.val hx
    have hy := congrArg Fin.val hy
    simp only [Fin.val_ofNat] at hx hy
    simp only [State.sprite, List.length_map, List.length_range] at hj
    have hc : (px.val + 64 - (s.reg x).toNat % 64) % 64 = k := by omega
    have hr : (py.val + 32 - (s.reg y).toNat % 32) % 32 = j := by omega
    refine ⟨⟨by omega, by omega⟩, ?_⟩
    rw [hc, hr]
    simpa [State.sprite, State.effective] using hb
  · rintro ⟨⟨hc, hr⟩, hb⟩
    refine ⟨_, by simpa [State.sprite] using hr, _, hc, ?_, ?_, ?_⟩
    · simpa [State.sprite, State.effective] using hb
    · apply Fin.ext; simp only [Fin.val_ofNat]; omega
    · apply Fin.ext; simp only [Fin.val_ofNat]; omega

/-- What drawing a sprite of at most 32 rows does to the framebuffer, and when it hits (R152, R153). -/
theorem State.drawn_spec (s : State) (x y : Reg) {n : Nat} (hn : n ≤ 32) :
    (∀ px py, (s.drawn x y n).1.pixel px py = (s.pixel px py != s.spriteCovers x y n px py)) ∧
    ((s.drawn x y n).2 = true ↔
      ∃ px py, s.spriteCovers x y n px py = true ∧ s.pixel px py = true) := by
  have hlen : (s.sprite n).length ≤ 32 := by simpa [State.sprite] using hn
  obtain ⟨hpix, hhit⟩ := drawPoints_spec
    (spritePoints_nodup (x0 := (s.reg x).toNat % 64) (y := (s.reg y).toNat % 32) hlen)
    (s.fb, false)
  rw [State.drawn, drawRows_eq_drawPoints]
  constructor
  · intro px py
    rw [hpix]
    have := mem_spritePoints_iff_covers s x y hn px py
    by_cases h : s.spriteCovers x y n px py = true
    · simp [State.pixel, this, h]
    · simp [State.pixel, this, h]
  · rw [hhit]
    constructor
    · rintro (h | ⟨⟨px, py⟩, hp, hon⟩)
      · exact absurd h (by simp)
      · exact ⟨px, py, (mem_spritePoints_iff_covers s x y hn px py).1 hp, hon⟩
    · rintro ⟨px, py, hc, hon⟩
      exact .inr ⟨(px, py), (mem_spritePoints_iff_covers s x y hn px py).2 hc, hon⟩

end Sys2Proof.Machine
end

