-- ==== Sys2Proof/Laws/Exec.lean ====
section
/-! SUPPORT. What an instruction can do, said once: it halts with the cause of the table of R170 and no
other effect, or it completes with its own effect. Frames and invariants take these two cases. -/

namespace Sys2Proof.Machine

/-- The state an instruction leaves where it does not halt. -/
def completed (i : Instr) (s : State) : State :=
  match i with
  | .cls => s.setFB Framebuffer.clear
  | .ret => s.drop.setPC s.top
  | .jp nnn => s.setPC (addressOf nnn)
  | .call nnn => (s.push s.pc).setPC (addressOf nnn)
  | .seImm x nn => s.skipIf (s.reg x == nn)
  | .sneImm x nn => s.skipIf (s.reg x != nn)
  | .seReg x y => s.skipIf (s.reg x == s.reg y)
  | .ldImm x nn => s.setReg x nn
  | .addImm x nn => s.setReg x (s.reg x + nn)
  | .ldReg x y => s.setReg x (s.reg y)
  | .orReg x y => s.setReg x (s.reg x ||| s.reg y)
  | .andReg x y => s.setReg x (s.reg x &&& s.reg y)
  | .xorReg x y => s.setReg x (s.reg x ^^^ s.reg y)
  | .addReg x y => s.setResultAndFlag x (s.reg x + s.reg y) (carryOut (s.reg x) (s.reg y))
  | .subReg x y => s.setResultAndFlag x (s.reg x - s.reg y) (noBorrow (s.reg x) (s.reg y))
  | .shr x _ => s.setResultAndFlag x (s.reg x >>> 1) (lowBit (s.reg x))
  | .subnReg x y => s.setResultAndFlag x (s.reg y - s.reg x) (noBorrow (s.reg y) (s.reg x))
  | .shl x _ => s.setResultAndFlag x (s.reg x <<< 1) (highBit (s.reg x))
  | .sneReg x y => s.skipIf (s.reg x != s.reg y)
  | .ldI nnn => s.setI (addressOf nnn)
  | .jpV0 nnn => s.setPC (BitVec.ofNat 16 (s.indexedTarget nnn))
  | .rnd x nn => s.setReg x (s.io.rnd &&& nn)
  | .drw x y n => (s.setFB (s.drawn x y n).1).setReg regF (flagByte (s.drawn x y n).2)
  | .skp x => s.skipIf (s.keyDown (lowNibble (s.reg x)))
  | .sknp x => s.skipIf (!s.keyDown (lowNibble (s.reg x)))
  | .ldVxDT x => s.setReg x s.dt
  | .ldVxK x => match s.lowestKey with
    | none => s.holdForKey
    | some k => s.setReg x (BitVec.ofNat 8 k.val)
  | .ldDTVx x => s.setDT (s.reg x)
  | .ldSTVx x => s.setST (s.reg x)
  | .addI x => s.setI (s.i + (s.reg x).setWidth 16)
  | .ldF x => s.setI (glyphAddress (lowNibble (s.reg x)))
  | .ldB x => s.setMem (s.mem.load (s.effective 0) (decimalDigits (s.reg x)))
  | .storeRegs x => s.setMem (s.mem.load (s.effective 0) ((regsUpTo x).map s.reg))
  | .loadRegs x => s.loadRegsFrom (s.effective 0) (regsUpTo x)

/-- The bounds check in terms of the cause it raises. -/
theorem withinMemory_eq (len : Nat) (s done : State) :
    withinMemory len s done = .next ((outOfMemory s len).elim done (s.setStatus .halt)) := by
  by_cases h : 0 < len ∧ 0x1000 < s.i.toNat + len
  · rw [withinMemory_outside h, outOfMemory, if_pos h]; rfl
  · rw [withinMemory_inside (by omega), outOfMemory, if_neg h]; rfl

/-- No cause: the range lies inside memory. -/
theorem outOfMemory_eq_none {s : State} {len : Nat} :
    outOfMemory s len = none ↔ len = 0 ∨ s.i.toNat + len ≤ 0x1000 := by
  unfold outOfMemory
  split <;> simp <;> omega

/-- Every instruction answers a next state: halted with its cause, or completed. -/
theorem exec_eq (i : Instr) (s : State) :
    exec i s = .next ((haltCause i s).elim (completed i s) (s.setStatus .halt)) := by
  cases i with
  | ret =>
    by_cases h : s.sp = 0
    · simp [exec, execRet, haltCause, h, halt_eq]
    · have h' : s.sp.val ≠ 0 := fun e => h (Fin.ext e)
      simp only [exec, execRet, haltCause, h, h', if_false]; rfl
  | call nnn =>
    by_cases h : s.sp = 16
    · simp only [exec, execCall, haltCause, h, if_true, halt_eq]; rfl
    · have h' : s.sp.val ≠ 16 := fun e => h (Fin.ext e)
      simp only [exec, execCall, haltCause, h, h', if_false]; rfl
  | jpV0 nnn =>
    by_cases h : 0xFFF < s.indexedTarget nnn
    · have h' : 0x1000 ≤ nnn.toNat + (s.reg 0).toNat := h
      simp only [exec, execJpV0, haltCause, h, h', if_true, halt_eq]; rfl
    · have h' : ¬ 0x1000 ≤ nnn.toNat + (s.reg 0).toNat := h
      simp only [exec, execJpV0, haltCause, h, h', if_false]; rfl
  | drw _ _ _ => exact withinMemory_eq _ _ _
  | ldB _ => exact withinMemory_eq _ _ _
  | storeRegs _ => exact withinMemory_eq _ _ _
  | loadRegs _ => exact withinMemory_eq _ _ _
  | _ => rfl

/-- The two things an instruction can do. -/
theorem exec_cases {i : Instr} {s t : State} (h : exec i s = .next t) :
    (∃ c, haltCause i s = some c ∧ t = s.setStatus .halt c) ∨
      (haltCause i s = none ∧ t = completed i s) := by
  rw [exec_eq] at h
  cases hc : haltCause i s with
  | some c => rw [hc] at h; cases h; exact .inl ⟨c, rfl, rfl⟩
  | none => rw [hc] at h; cases h; exact .inr ⟨rfl, rfl⟩

/-- An instruction that has no cause to halt completes. -/
theorem exec_completes {i : Instr} {s : State} (h : haltCause i s = none) :
    exec i s = .next (completed i s) := by rw [exec_eq, h]; rfl

/-- An instruction that has a cause to halt writes `MODE` and `CAUSE` and nothing else. -/
theorem exec_halts {i : Instr} {s : State} {c : Cause} (h : haltCause i s = some c) :
    exec i s = .next (s.setStatus .halt c) := by rw [exec_eq, h]; rfl

/-- `Fx65` writes general registers only. -/
theorem completed_loadRegs (x : Reg) (s : State) :
    completed (.loadRegs x) s = { s with v := (completed (.loadRegs x) s).v } :=
  (State.loadRegsFrom_spec _ s _ (regsUpTo_nodup x)).2

/-- `Fx65` writes `V[0]` to `V[x]` from memory and leaves the higher registers. -/
theorem completed_loadRegs_reg (x r : Reg) (s : State) :
    (completed (.loadRegs x) s).reg r =
      if r ≤ x then s.readByte (s.i.toNat + r.val) else s.reg r := by
  simpa [completed, State.effective] using
    (State.loadRegsFrom_spec (regsUpTo x) s (s.effective 0) (regsUpTo_nodup x)).1 r

end Sys2Proof.Machine
end

