-- ==== Sys2Proof/Laws/PerInstr.lean ====
section
/-! SUPPORT. Statements made per instruction: one family, `RoundTrip`, with one lemma per constructor
of `Instr`. -/

namespace Sys2Proof.Laws.RoundTrip

open Sys2Proof

/-- A well-formed instruction decodes from its own word (R71 to R75). -/
def Statement (i : Instr) : Prop := i.wellFormed = true → decodeWord (encode i) = some i

/-- A row of the opcode map, by its place in the table. -/
theorem row {k : Nat} {r : OpcodeRow} (h : opcodeRows[k]? = some r) : r ∈ opcodeRows :=
  List.mem_of_getElem? h

theorem cls : Statement .cls := fun _ => rfl
theorem ret : Statement .ret := fun _ => rfl
theorem jp (nnn : Addr) : Statement (.jp nnn) := fun _ => by
  simpa [encode] using decodeWord_formatNNN 0x1 (row (k := 2) rfl) rfl nnn
theorem call (nnn : Addr) : Statement (.call nnn) := fun _ => by
  simpa [encode] using decodeWord_formatNNN 0x2 (row (k := 3) rfl) rfl nnn
theorem seImm (x : Reg) (nn : Byte) : Statement (.seImm x nn) := fun _ => by
  simpa [encode] using decodeWord_formatXNN 0x3 (row (k := 4) rfl) rfl x nn
theorem sneImm (x : Reg) (nn : Byte) : Statement (.sneImm x nn) := fun _ => by
  simpa [encode] using decodeWord_formatXNN 0x4 (row (k := 5) rfl) rfl x nn
theorem seReg (x y : Reg) : Statement (.seReg x y) := fun _ => by
  simpa [encode] using decodeWord_formatXYS 0x5 0x0 (row (k := 6) rfl) rfl x y
theorem ldImm (x : Reg) (nn : Byte) : Statement (.ldImm x nn) := fun _ => by
  simpa [encode] using decodeWord_formatXNN 0x6 (row (k := 7) rfl) rfl x nn
theorem addImm (x : Reg) (nn : Byte) : Statement (.addImm x nn) := fun _ => by
  simpa [encode] using decodeWord_formatXNN 0x7 (row (k := 8) rfl) rfl x nn
theorem ldReg (x y : Reg) : Statement (.ldReg x y) := fun _ => by
  simpa [encode] using decodeWord_formatXYS 0x8 0x0 (row (k := 9) rfl) rfl x y
theorem orReg (x y : Reg) : Statement (.orReg x y) := fun _ => by
  simpa [encode] using decodeWord_formatXYS 0x8 0x1 (row (k := 10) rfl) rfl x y
theorem andReg (x y : Reg) : Statement (.andReg x y) := fun _ => by
  simpa [encode] using decodeWord_formatXYS 0x8 0x2 (row (k := 11) rfl) rfl x y
theorem xorReg (x y : Reg) : Statement (.xorReg x y) := fun _ => by
  simpa [encode] using decodeWord_formatXYS 0x8 0x3 (row (k := 12) rfl) rfl x y
theorem addReg (x y : Reg) : Statement (.addReg x y) := fun _ => by
  simpa [encode] using decodeWord_formatXYS 0x8 0x4 (row (k := 13) rfl) rfl x y
theorem subReg (x y : Reg) : Statement (.subReg x y) := fun _ => by
  simpa [encode] using decodeWord_formatXYS 0x8 0x5 (row (k := 14) rfl) rfl x y
theorem shr (x y : Reg) : Statement (.shr x y) := fun _ => by
  simpa [encode] using decodeWord_formatXYS 0x8 0x6 (row (k := 15) rfl) rfl x y
theorem subnReg (x y : Reg) : Statement (.subnReg x y) := fun _ => by
  simpa [encode] using decodeWord_formatXYS 0x8 0x7 (row (k := 16) rfl) rfl x y
theorem shl (x y : Reg) : Statement (.shl x y) := fun _ => by
  simpa [encode] using decodeWord_formatXYS 0x8 0xE (row (k := 17) rfl) rfl x y
theorem sneReg (x y : Reg) : Statement (.sneReg x y) := fun _ => by
  simpa [encode] using decodeWord_formatXYS 0x9 0x0 (row (k := 18) rfl) rfl x y
theorem ldI (nnn : Addr) : Statement (.ldI nnn) := fun _ => by
  simpa [encode] using decodeWord_formatNNN 0xA (row (k := 19) rfl) rfl nnn
theorem jpV0 (nnn : Addr) : Statement (.jpV0 nnn) := fun _ => by
  simpa [encode] using decodeWord_formatNNN 0xB (row (k := 20) rfl) rfl nnn
theorem rnd (x : Reg) (nn : Byte) : Statement (.rnd x nn) := fun _ => by
  simpa [encode] using decodeWord_formatXNN 0xC (row (k := 21) rfl) rfl x nn
theorem drw (x y : Reg) (n : Nat) : Statement (.drw x y n) := fun h => by
  have hn : n < 16 := by simpa [Instr.wellFormed] using h
  simpa [encode, Nat.mod_eq_of_lt hn] using
    decodeWord_formatXYN 0xD (row (k := 22) rfl) rfl x y (BitVec.ofNat 4 n)
theorem skp (x : Reg) : Statement (.skp x) := fun _ => by
  simpa [encode] using decodeWord_formatXSS 0xE 0x9E (row (k := 23) rfl) rfl x
theorem sknp (x : Reg) : Statement (.sknp x) := fun _ => by
  simpa [encode] using decodeWord_formatXSS 0xE 0xA1 (row (k := 24) rfl) rfl x
theorem ldVxDT (x : Reg) : Statement (.ldVxDT x) := fun _ => by
  simpa [encode] using decodeWord_formatXSS 0xF 0x07 (row (k := 25) rfl) rfl x
theorem ldVxK (x : Reg) : Statement (.ldVxK x) := fun _ => by
  simpa [encode] using decodeWord_formatXSS 0xF 0x0A (row (k := 26) rfl) rfl x
theorem ldDTVx (x : Reg) : Statement (.ldDTVx x) := fun _ => by
  simpa [encode] using decodeWord_formatXSS 0xF 0x15 (row (k := 27) rfl) rfl x
theorem ldSTVx (x : Reg) : Statement (.ldSTVx x) := fun _ => by
  simpa [encode] using decodeWord_formatXSS 0xF 0x18 (row (k := 28) rfl) rfl x
theorem addI (x : Reg) : Statement (.addI x) := fun _ => by
  simpa [encode] using decodeWord_formatXSS 0xF 0x1E (row (k := 29) rfl) rfl x
theorem ldF (x : Reg) : Statement (.ldF x) := fun _ => by
  simpa [encode] using decodeWord_formatXSS 0xF 0x29 (row (k := 30) rfl) rfl x
theorem ldB (x : Reg) : Statement (.ldB x) := fun _ => by
  simpa [encode] using decodeWord_formatXSS 0xF 0x33 (row (k := 31) rfl) rfl x
theorem storeRegs (x : Reg) : Statement (.storeRegs x) := fun _ => by
  simpa [encode] using decodeWord_formatXSS 0xF 0x55 (row (k := 32) rfl) rfl x
theorem loadRegs (x : Reg) : Statement (.loadRegs x) := fun _ => by
  simpa [encode] using decodeWord_formatXSS 0xF 0x65 (row (k := 33) rfl) rfl x

end Sys2Proof.Laws.RoundTrip
end

