-- ==== Sys2Proof/Tests/Slice0.lean ====
section
/-! SUPPORT. Tests: what the well-formedness check refuses; words written out from the digits of the
opcode map (R71, R74) decode to what they stand for; one step per instruction, with the results of
spec/95_test_vectors.md (T and E numbers); and, for every obligation with hypotheses, concrete values
that meet them together. -/

namespace Sys2Proof.Tests

open Sys2Proof Sys2Proof.Machine

/-! ### Well-formedness -/

/-- A sprite of 16 rows does not fit its 4-bit field (R73). -/
theorem test_sprite_of_sixteen_rows_is_refused : (Instr.drw 0 0 16).wellFormed = false := by decide

theorem test_sprite_of_fifteen_rows_is_well_formed : (Instr.drw 0 0 15).wellFormed = true := by
  decide

/-! ### Decoding: every row of R74, by a word written from its digits -/

theorem test_decode_families_0_1_2_B :
    decodeTableWord 16 0x00E0 = some .cls ∧ decodeTableWord 16 0x00EE = some .ret ∧
    decodeTableWord 16 0x1ABC = some (.jp 0xABC) ∧ decodeTableWord 16 0x2300 = some (.call 0x300) ∧
    decodeTableWord 16 0xBFFE = some (.jpV0 0xFFE) := by decide

theorem test_decode_families_3_4_5_9 :
    decodeTableWord 16 0x3A42 = some (.seImm 10 0x42) ∧
    decodeTableWord 16 0x4A42 = some (.sneImm 10 0x42) ∧
    decodeTableWord 16 0x5AB0 = some (.seReg 10 11) ∧
    decodeTableWord 16 0x9AB0 = some (.sneReg 10 11) := by decide

theorem test_decode_families_6_7_A_C_D :
    decodeTableWord 16 0x6FAA = some (.ldImm 15 0xAA) ∧
    decodeTableWord 16 0x7F02 = some (.addImm 15 0x02) ∧
    decodeTableWord 16 0xA123 = some (.ldI 0x123) ∧
    decodeTableWord 16 0xC30F = some (.rnd 3 0x0F) ∧
    decodeTableWord 16 0xD34F = some (.drw 3 4 15) := by decide

theorem test_decode_family_8 :
    decodeTableWord 16 0x8120 = some (.ldReg 1 2) ∧ decodeTableWord 16 0x8121 = some (.orReg 1 2) ∧
    decodeTableWord 16 0x8122 = some (.andReg 1 2) ∧ decodeTableWord 16 0x8123 = some (.xorReg 1 2) ∧
    decodeTableWord 16 0x8124 = some (.addReg 1 2) ∧ decodeTableWord 16 0x8125 = some (.subReg 1 2) ∧
    decodeTableWord 16 0x8126 = some (.shr 1 2) ∧ decodeTableWord 16 0x8127 = some (.subnReg 1 2) ∧
    decodeTableWord 16 0x812E = some (.shl 1 2) := by decide

theorem test_decode_families_E_F :
    decodeTableWord 16 0xE59E = some (.skp 5) ∧ decodeTableWord 16 0xE5A1 = some (.sknp 5) ∧
    decodeTableWord 16 0xF307 = some (.ldVxDT 3) ∧ decodeTableWord 16 0xF30A = some (.ldVxK 3) ∧
    decodeTableWord 16 0xF315 = some (.ldDTVx 3) ∧ decodeTableWord 16 0xF318 = some (.ldSTVx 3) ∧
    decodeTableWord 16 0xF31E = some (.addI 3) ∧ decodeTableWord 16 0xF329 = some (.ldF 3) ∧
    decodeTableWord 16 0xF333 = some (.ldB 3) ∧ decodeTableWord 16 0xF355 = some (.storeRegs 3) ∧
    decodeTableWord 16 0xF365 = some (.loadRegs 3) := by decide

/-- Unknown words, from the list under T6. -/
theorem test_decode_unknown_words :
    ∀ w ∈ [0x0000, 0x00E1, 0x00EF, 0x0123, 0x5001, 0x8008, 0x812F, 0x9121, 0xE19F, 0xE000, 0xF175,
      0xFFFF], decodeTableWord 16 w = none := by decide

/-- Known words that look odd, from the list under T6. -/
theorem test_decode_odd_words :
    decodeTableWord 16 0x8FFE = some (.shl 15 15) ∧ decodeTableWord 16 0xFF0A = some (.ldVxK 15) ∧
    decodeTableWord 16 0xDFF0 = some (.drw 15 15 0) ∧
    decodeTableWord 16 0x5FF0 = some (.seReg 15 15) := by decide

/-- One byte is no instruction. -/
theorem test_decode_truncated : decode [0x12] = .error .truncated := rfl

/-! ### One step -/

/-- The boot state with some general registers set. -/
def regs (l : List (Reg × Byte)) : State :=
  l.foldl (fun s p => s.setReg p.1 p.2) State.reset

/-- The boot state with bytes stored at 0x300, `I` pointing there, and some registers set. -/
def sprite (bytes : List Byte) (l : List (Reg × Byte)) : State :=
  ((regs l).setMem ((regs l).mem.load 0x300 bytes)).setI 0x300

/-- The state after one cycle of the word at `PC`, on a keypad sample and a random byte. -/
def afterOn (keys : BitVec 16) (rnd : Byte) (op : Word) (s : State) : Option State :=
  match cycle keys rnd (placeWord s op) with
  | .next t => some t
  | _ => none

/-- The state after one cycle of the word at `PC`, no key down. -/
def after (op : Word) (s : State) : Option State := afterOn 0 0 op s

/-- The state after one cycle from the boot state with another `PC`. -/
def fetchFrom (pc : Word) : Option State :=
  match cycle 0 0 (State.reset.setPC pc) with
  | .next t => some t
  | _ => none

/-- T1. -/
theorem test_unknown_opcode : (after 0x0000 State.reset).map (fun t => (t.pc, t.mode, t.io.report)) =
    some (0x202, .run, some (.unknownOpcode 0x0000 0x200)) := by decide

/-- T3, T4: the fetch past the end halts with `PC` unchanged. -/
theorem test_fetch_past_end :
    (fetchFrom 0xFFF).map (fun t => (t.mode, t.cause, t.pc, t.io.report)) =
      some (.halt, .memoryOutOfBounds, 0xFFF, none) ∧
    (fetchFrom 0x1000).map (fun t => (t.mode, t.cause, t.pc, t.io.report)) =
      some (.halt, .memoryOutOfBounds, 0x1000, none) := by decide

/-- T5: the last fetch address. -/
theorem test_last_fetch : (after 0x6A05 (State.reset.setPC 0xFFE)).map (fun t => (t.reg 10, t.pc)) =
    some (0x05, 0x1000) := by decide

/-- T70. -/
theorem test_cls :
    (after 0x00E0 (State.reset.setFB ((State.reset.fb.flip 0 0).flip 63 31))).map (·.fb) =
      some State.reset.fb := by decide

/-- T17. -/
theorem test_ret :
    (after 0x00EE (((State.reset.push 0x206).push 0x30A).setPC 0x400)).map
      (fun t => (t.pc, t.sp, t.stackEntry 1)) = some (0x30A, 1, 0x30A) := by decide

/-- T18. -/
theorem test_ret_underflow : (after 0x00EE State.reset).map (fun t => (t.mode, t.cause, t.pc, t.sp)) =
    some (.halt, .stackUnderflow, 0x202, 0) := by decide

/-- T7a: no check on a jump target. -/
theorem test_jp : (after 0x1FFF State.reset).map (fun t => (t.pc, t.mode)) = some (0xFFF, .run) := by
  decide

/-- E5, first cycle. -/
theorem test_call : (after 0x2300 State.reset).map (fun t => (t.pc, t.sp, t.stackEntry 0)) =
    some (0x300, 1, 0x202) := by decide

/-- T16. -/
theorem test_call_overflow :
    (after 0x2ABC (State.reset.setStack State.reset.stack 16)).map
      (fun t => (t.mode, t.cause, t.pc, t.sp)) = some (.halt, .stackOverflow, 0x202, 16) := by decide

/-- T8, T9. -/
theorem test_seImm : (after 0x3A42 (regs [(10, 0x42)])).map (·.pc) = some 0x204 ∧
    (after 0x3A42 (regs [(10, 0x43)])).map (·.pc) = some 0x202 := by decide

/-- T10, T11. -/
theorem test_sneImm : (after 0x4A42 (regs [(10, 0x42)])).map (·.pc) = some 0x202 ∧
    (after 0x4A42 (regs [(10, 0x43)])).map (·.pc) = some 0x204 := by decide

/-- T12, T12a. -/
theorem test_seReg : (after 0x5AB0 (regs [(10, 7), (11, 7)])).map (·.pc) = some 0x204 ∧
    (after 0x5AB0 (regs [(10, 7), (11, 8)])).map (·.pc) = some 0x202 := by decide

/-- T13, T13a. -/
theorem test_sneReg : (after 0x9AB0 (regs [(10, 7), (11, 8)])).map (·.pc) = some 0x204 ∧
    (after 0x9AA0 (regs [(10, 7)])).map (·.pc) = some 0x202 := by decide

/-- T19, T19a. -/
theorem test_jpV0 : (after 0xB300 (regs [(0, 4)])).map (·.pc) = some 0x304 ∧
    (after 0xBFFE (regs [(0, 1)])).map (fun t => (t.pc, t.mode)) = some (0xFFF, .run) := by decide

/-- T19b. -/
theorem test_jpV0_past_end : (after 0xBFFE (regs [(0, 2)])).map (fun t => (t.mode, t.cause, t.pc)) =
    some (.halt, .memoryOutOfBounds, 0x202) := by decide

/-- T53. -/
theorem test_ldImm : (after 0x6FAA State.reset).map (·.reg 15) = some 0xAA := by decide

/-- T52a: no carry flag. -/
theorem test_addImm : (after 0x7001 (regs [(0, 0xFF), (15, 7)])).map (fun t => (t.reg 0, t.reg 15)) =
    some (0x00, 0x07) := by decide

/-- T51. -/
theorem test_ldReg : (after 0x8010 (regs [(1, 0xAB), (15, 7)])).map
    (fun t => (t.reg 0, t.reg 1, t.reg 15)) = some (0xAB, 0xAB, 0x07) := by decide

/-- T48. -/
theorem test_orReg : (after 0x8011 (regs [(0, 0xF0), (1, 0x0F), (15, 7)])).map
    (fun t => (t.reg 0, t.reg 15)) = some (0xFF, 0x07) := by decide

/-- T49. -/
theorem test_andReg : (after 0x8012 (regs [(0, 0xF3), (1, 0x3C), (15, 7)])).map
    (fun t => (t.reg 0, t.reg 15)) = some (0x30, 0x07) := by decide

/-- T50. -/
theorem test_xorReg : (after 0x8013 (regs [(0, 0xFF), (1, 0x0F), (15, 7)])).map
    (fun t => (t.reg 0, t.reg 15)) = some (0xF0, 0x07) := by decide

/-- T20. -/
theorem test_addReg : (after 0x8014 (regs [(0, 0xFF), (1, 0x01)])).map
    (fun t => (t.reg 0, t.reg 1, t.reg 15)) = some (0x00, 0x01, 0x01) := by decide

/-- T24, T25: with `x = F` the flag stands. -/
theorem test_addReg_into_VF : (after 0x8F14 (regs [(15, 0xFF), (1, 1)])).map (·.reg 15) = some 1 ∧
    (after 0x8F14 (regs [(15, 1), (1, 1)])).map (·.reg 15) = some 0 := by decide

/-- T29, T30. -/
theorem test_subReg : (after 0x8015 (regs [(0, 0), (1, 1)])).map (fun t => (t.reg 0, t.reg 15)) =
      some (0xFF, 0) ∧
    (after 0x8015 (regs [(0, 5), (1, 5)])).map (fun t => (t.reg 0, t.reg 15)) = some (0, 1) := by
  decide

/-- T39: `V1` is not used. -/
theorem test_shr : (after 0x8016 (regs [(0, 0xFF), (1, 2)])).map
    (fun t => (t.reg 0, t.reg 1, t.reg 15)) = some (0x7F, 2, 1) := by decide

/-- T37, T38. -/
theorem test_subnReg : (after 0x8017 (regs [(0, 1), (1, 0x10)])).map (fun t => (t.reg 0, t.reg 15)) =
      some (0x0F, 1) ∧
    (after 0x8F17 (regs [(15, 5), (1, 3)])).map (·.reg 15) = some 0 := by decide

/-- T44: `V1` is not used. -/
theorem test_shl : (after 0x801E (regs [(0, 0xFF), (1, 2)])).map
    (fun t => (t.reg 0, t.reg 1, t.reg 15)) = some (0xFE, 2, 1) := by decide

/-- T54. -/
theorem test_rnd : (afterOn 0 0xA7 0xC30F State.reset).map (·.reg 3) = some 0x07 := by decide

/-- T64a. -/
theorem test_ldI : (after 0xAFFF State.reset).map (·.i) = some 0x0FFF := by decide

/-- T66, T67. -/
theorem test_addI :
    (after 0xF21E ((regs [(2, 1), (15, 7)]).setI 0x0FFF)).map (fun t => (t.i, t.reg 15, t.mode)) =
      some (0x1000, 7, .run) ∧
    (after 0xF21E ((regs [(2, 1)]).setI 0xFFFF)).map (·.i) = some 0x0000 := by decide

/-- T68a, for any `FONT_BASE`: the glyph of the low nibble. -/
theorem test_ldF : (execLdF 1 (regs [(1, 0x1A)])) =
    .next ((regs [(1, 0x1A)]).setI (BitVec.ofNat 16 (Config.fontBase.val + 50))) := rfl

/-- T55 and T56: the digits, and the last place they fit. -/
theorem test_ldB :
    (after 0xF033 ((regs [(0, 0xEA)]).setI 0x300)).map
      (fun t => (t.readByte 0x300, t.readByte 0x301, t.readByte 0x302, t.i)) =
        some (2, 3, 4, 0x300) ∧
    (after 0xF033 ((regs [(0, 0x7B)]).setI 0xFFD)).map (fun t => (t.readByte 0xFFF, t.mode)) =
      some (3, .run) := by decide

/-- T57. -/
theorem test_ldB_past_end : (after 0xF033 ((regs [(0, 0x7B)]).setI 0xFFE)).map
    (fun t => (t.mode, t.cause, t.pc, t.readByte 0xFFE)) =
      some (.halt, .memoryOutOfBounds, 0x202, 0) := by decide

/-- T60: one register only. -/
theorem test_storeRegs : (after 0xF055 ((regs [(0, 0x12), (1, 0x34)]).setI 0x300)).map
    (fun t => (t.readByte 0x300, t.readByte 0x301, t.i)) = some (0x12, 0x00, 0x300) := by decide

/-- T58, T59: the whole range or nothing. -/
theorem test_storeRegs_at_the_end :
    (after 0xFF55 ((regs [(0, 0xA0), (15, 0xAF)]).setI 0xFF0)).map
      (fun t => (t.readByte 0xFF0, t.readByte 0xFFF, t.mode)) = some (0xA0, 0xAF, .run) ∧
    (after 0xFF55 ((regs [(0, 0xA0), (15, 0xAF)]).setI 0xFF1)).map
      (fun t => (t.readByte 0xFF1, t.mode)) = some (0, .halt) := by decide

/-- R145, in the shape of T62 with bytes of the program's own. -/
theorem test_loadRegs : (after 0xF165 (sprite [0x20, 0x60, 0x99] [(2, 0x77)])).map
    (fun t => (t.reg 0, t.reg 1, t.reg 2, t.i)) = some (0x20, 0x60, 0x77, 0x300) := by decide

/-- T63. -/
theorem test_loadRegs_past_end : (after 0xF065 ((regs [(0, 9)]).setI 0x1000)).map
    (fun t => (t.mode, t.cause, t.reg 0, t.pc)) =
      some (.halt, .memoryOutOfBounds, 9, 0x202) := by decide

/-- T74: wrap in x, and the bits of a row from the left. -/
theorem test_drw_wraps : (after 0xD012 (sprite [0xC0, 0x03] [(0, 0x7E), (1, 0x41)])).map
    (fun t => (t.fb, t.reg 15)) =
      some ((((State.reset.fb.flip 62 1).flip 63 1).flip 4 2).flip 5 2, 0) := by decide

/-- T75: the coordinate is read from `VF` before the flag is written. -/
theorem test_drw_collides :
    (after 0xDF11 ((sprite [0x80] [(15, 1), (1, 2)]).setFB (State.reset.fb.flip 1 2))).map
      (fun t => (t.fb, t.reg 15)) = some (State.reset.fb, 1) := by decide

/-- T80, T80a, T80b. -/
theorem test_skp : (afterOn 0x0400 0 0xE59E (regs [(5, 0x0A)])).map (·.pc) = some 0x204 ∧
    (afterOn 0xFBFF 0 0xE59E (regs [(5, 0x0A)])).map (·.pc) = some 0x202 ∧
    (afterOn 0x0400 0 0xE59E (regs [(5, 0x1A)])).map (·.pc) = some 0x204 := by decide

/-- T81, T81a. -/
theorem test_sknp : (afterOn 0x0400 0 0xE5A1 (regs [(5, 0x0A)])).map (·.pc) = some 0x202 ∧
    (afterOn 0 0 0xE5A1 (regs [(5, 0x0A)])).map (·.pc) = some 0x204 := by decide

/-- T82. -/
theorem test_ldVxK_waits : (after 0xF30A State.reset).map (fun t => (t.pc, t.mode, t.reg 3)) =
    some (0x200, .waitKey, 0) := by decide

/-- T82a, T82d: the lowest key, and a held key ends the wait. -/
theorem test_ldVxK_takes_lowest :
    (afterOn 0x0084 0 0xF30A State.reset).map (fun t => (t.reg 3, t.pc, t.mode)) =
      some (2, 0x202, .run) ∧
    (afterOn 0x0001 0 0xF30A (State.reset.setStatus .waitKey .none)).map
      (fun t => (t.reg 3, t.pc, t.mode)) = some (0, 0x202, .run) := by decide

/-- T83. -/
theorem test_ldVxDT : (after 0xF307 (State.reset.setDT 0x2A)).map (fun t => (t.reg 3, t.dt)) =
    some (0x2A, 0x2A) := by decide

/-- T84. -/
theorem test_ldDTVx : (after 0xF315 (regs [(3, 0x3C)])).map (·.dt) = some 0x3C := by decide

/-- T85, T85a. -/
theorem test_ldSTVx : (after 0xF318 (regs [(3, 2)])).map (fun t => (t.st, t.tone)) =
      some (2, true) ∧
    (after 0xF318 ((regs [(3, 0)]).setST 5)).map (fun t => (t.st, t.tone)) = some (0, false) := by
  decide

/-- T86, T86a. -/
theorem test_tick : ((State.reset.setST 1).tick.dt, (State.reset.setST 1).tick.st) = (0, 0) ∧
    ((State.reset.setDT 0xFF).tick.dt, (State.reset.setDT 0xFF).tick.st) = (0xFE, 0) := by decide

/-- T92 and the first bytes of P1: the launch state has the image at 0x200. -/
theorem test_launch : launch [] = .next (State.reset.setIo { State.reset.io with boot := .loaded }) ∧
    (match launch [0x60, 0x05] with
      | .next t => some (t.readByte 0x200, t.readByte 0x201, t.readByte 0x202, t.pc)
      | _ => none) = some (0x60, 0x05, 0x00, 0x200) := ⟨rfl, by decide⟩

/-- R202, D33: after a failed load neither a cycle nor a second load is taken. -/
theorem test_failed_load_ends_the_session :
    let s := State.reset.setIo { State.reset.io with boot := .loadFailed }
    event (.cycle 0 0) s = .refused .cycleAfterFailedLoad ∧
    event (.load [] 0x200) s = .refused .loadOutsideBoot := ⟨rfl, rfl⟩

/-- A step runs the word that `withFetchWord` places. -/
theorem test_withFetchWord : (match step (State.reset.withFetchWord 16 0x6A05) with
    | .next t => some (t.reg 10, t.pc)
    | _ => none) = some (0x05, 0x202) := by decide

/-! ### Witnesses: the hypotheses of each obligation can be met -/

/-- A state about to execute a word, with one cycle pending. -/
def withCycle (op : Word) (s : State) : State :=
  (placeWord s op).setIo { s.io with pending := [.cycle 0 0] }

theorem witness_DecodeOfEncodeIsInstruction : (Instr.drw 3 4 15).wellFormed = true := by decide

theorem witness_EncodeOfDecodeIsWord : decodeWord 0x812E = some (.shl 1 2) := by decide

/-- With an event pending, at the last fetch address; and with none. -/
theorem witness_StepRunsDecodedInstruction :
    let s := withCycle 0x6A05 (State.reset.setPC 0xFFE)
    let t := placeWord (State.reset.setPC 0xFFE) 0x6A05
    (s.io.boot ≠ .loadFailed ∧ s.mode ≠ .halt ∧ s.pc.toNat ≤ 0xFFE ∧
      decodeWord (s.wordAt s.pc.toNat) = some (.ldImm 10 0x05) ∧
      s.io.pending = [.cycle 0 0]) ∧
    (t.io.boot ≠ .loadFailed ∧ t.mode ≠ .halt ∧ t.pc.toNat ≤ 0xFFE ∧
      decodeWord (t.wordAt t.pc.toNat) = some (.ldImm 10 0x05) ∧ t.io.pending = []) := by decide

theorem witness_StepTakesOldestEvent :
    (State.reset.setIo { State.reset.io with pending := [.tick, .reset] }).io.pending =
      [.tick, .reset] := by decide

/-- At reset, and at the last fetch address. -/
theorem witness_UnknownOpcodeIsReportedNoOp :
    (State.reset.mode ≠ .halt ∧ State.reset.pc.toNat ≤ 0xFFE ∧
      decodeWord (State.reset.wordAt State.reset.pc.toNat) = none) ∧
    let s := State.reset.setPC 0xFFE
    s.mode ≠ .halt ∧ s.pc.toNat ≤ 0xFFE ∧ decodeWord (s.wordAt s.pc.toNat) = none := by decide

theorem witness_FetchPastEndHalts :
    (State.reset.setPC 0xFFF).mode ≠ .halt ∧ 0xFFE < (State.reset.setPC 0xFFF).pc.toNat := by decide

/-- A tick, a cycle, and a load that the boot sequence still admits. -/
theorem witness_OnlyResetLeavesHalt :
    let s := State.reset.setStatus .halt .stackOverflow
    s.mode = .halt ∧ (∃ t, event .tick s = .next t) ∧ (∃ t, event (.cycle 0 0) s = .next t) ∧
      (∃ t, event (.load [0x12] 0x200) s = .next t) :=
  ⟨rfl, ⟨_, rfl⟩, ⟨_, rfl⟩, ⟨_, rfl⟩⟩

/-- The next instruction is the last word of memory, and `V0`, `V1` hold a word of P4. -/
theorem witness_StoreIsSeenByNextFetch :
    let s := ((regs [(0, 0x6A), (1, 0x77)]).setPC 0xFFE).setI 0xFFE
    s.mode ≠ .halt ∧ 1 ≤ (1 : Reg).val ∧ s.i = s.pc ∧ s.i.toNat + (1 : Reg).val ≤ 0xFFF ∧
    decodeWord (BitVec.ofNat 16 (256 * (s.reg 0).toNat + (s.reg 1).toNat)) =
      some (.ldImm 10 0x77) := by decide

/-- A state other than the reset state: a call is live and a tick is pending. -/
theorem witness_StepKeepsInvariant :
    let s := (State.reset.push 0x202).setIo { State.reset.io with pending := [.tick] }
    s.Inv ∧ ∃ t, step s = .next t :=
  ⟨⟨rfl, by decide, by decide, by decide, by decide, by decide, fun h => by cases h⟩, ⟨_, rfl⟩⟩

/-- Each cause of an instruction, and none. -/
theorem witness_HaltsExactlyWhenSpecSays :
    let s := (State.reset.setI 0xFFE).setReg 0 2
    s.mode = .run ∧ haltCause .ret s = some .stackUnderflow ∧
    haltCause (.call 0) (s.setStack s.stack 16) = some .stackOverflow ∧
    haltCause (.jpV0 0xFFE) s = some .memoryOutOfBounds ∧ haltCause (.jpV0 0xFFD) s = none ∧
    haltCause (.drw 0 0 3) s = some .memoryOutOfBounds ∧ haltCause (.drw 0 0 2) s = none ∧
    haltCause (.ldB 0) s = some .memoryOutOfBounds ∧
    haltCause (.storeRegs 2) s = some .memoryOutOfBounds ∧ haltCause (.storeRegs 1) s = none ∧
    haltCause (.loadRegs 2) s = some .memoryOutOfBounds ∧ haltCause (.loadRegs 1) s = none := by
  decide

/-- The boot state with only key 15 down. -/
def keyDown15 : State := State.reset.setIo { State.reset.io with keys := 0x8000 }

/-- One instruction for each of the three ways, and a key wait with a key down. -/
theorem witness_ModeAfterInstruction :
    (State.reset.mode = .run ∧ State.reset.io.keys = 0 ∧ keyDown15.mode = .run ∧
      keyDown15.io.keys ≠ 0) ∧
    ((∃ t, exec .cls State.reset = .next t) ∧ haltCause .cls State.reset = none ∧
      ∀ x, Instr.cls ≠ .ldVxK x) ∧
    ((∃ t, exec .ret State.reset = .next t) ∧ (haltCause .ret State.reset).isSome = true) ∧
    (∃ t, exec (.ldVxK 3) State.reset = .next t) ∧
    ((∃ t, exec (.ldVxK 3) keyDown15 = .next t) ∧ haltCause (.ldVxK 3) keyDown15 = none) :=
  ⟨by decide, ⟨⟨_, rfl⟩, rfl, nofun⟩, ⟨⟨_, rfl⟩, rfl⟩, ⟨_, rfl⟩, ⟨_, rfl⟩, rfl⟩

theorem witness_FrameOfRegisters :
    (∃ t, exec (.addReg 1 2) State.reset = .next t) ∧ writesReg (.addReg 1 2) 14 = false :=
  ⟨⟨_, rfl⟩, by decide⟩

theorem witness_FlagInstructionsWriteZeroOrOne :
    writesFlag (.drw 0 0 15) = true ∧ haltCause (.drw 0 0 15) (State.reset.setI 0xFF1) = none := by
  decide

/-- A storing form at the end of memory, with the address just below its range, and a form that
stores nothing. -/
theorem witness_FrameOfMemory :
    let s := State.reset.setI 0xFFD
    (∃ t, exec (.ldB 0) s = .next t) ∧ storesTo (.ldB 0) s 0xFFF ∧ ¬ storesTo (.ldB 0) s 0xFFC ∧
      (∃ t, exec .cls s = .next t) ∧ storeLength .cls = 0 :=
  ⟨⟨_, rfl⟩, ⟨by decide, by decide⟩, fun h => absurd h.1 (by decide), ⟨_, rfl⟩, rfl⟩

theorem witness_FrameOfIndexRegister : (∃ t, exec (.storeRegs 3) State.reset = .next t) ∧
    (∀ nnn, Instr.storeRegs 3 ≠ .ldI nnn) ∧ (∀ x, Instr.storeRegs 3 ≠ .addI x) ∧
    ∀ x, Instr.storeRegs 3 ≠ .ldF x :=
  ⟨⟨_, rfl⟩, nofun, nofun, nofun⟩

/-- No call; neither call nor return; and a call with entries below and above the one it pushes. -/
theorem witness_FrameOfStack :
    (∃ t, exec .ret (State.reset.push 0x202) = .next t) ∧ (∀ nnn, Instr.ret ≠ .call nnn) ∧
    (∃ t, exec .cls State.reset = .next t) ∧ (∀ nnn, Instr.cls ≠ .call nnn) ∧ Instr.cls ≠ .ret ∧
    (∃ t, exec (.call 0x300) (State.reset.push 0x202) = .next t) ∧
    (0 : Fin 16).val ≠ (State.reset.push 0x202).sp.val ∧
    (15 : Fin 16).val ≠ (State.reset.push 0x202).sp.val :=
  ⟨⟨_, rfl⟩, nofun, ⟨_, rfl⟩, nofun, nofun, ⟨_, rfl⟩, by decide, by decide⟩

theorem witness_FrameOfTimers : (∃ t, exec (.ldVxDT 3) State.reset = .next t) ∧
    (∀ x, Instr.ldVxDT 3 ≠ .ldDTVx x) ∧ ∀ x, Instr.ldVxDT 3 ≠ .ldSTVx x :=
  ⟨⟨_, rfl⟩, nofun, nofun⟩

theorem witness_FrameOfFramebuffer : (∃ t, exec .ret State.reset = .next t) ∧ Instr.ret ≠ .cls ∧
    ∀ x y n, Instr.ret ≠ .drw x y n :=
  ⟨⟨_, rfl⟩, nofun, nofun⟩

/-- An instruction of the plain kind, and a key wait with a key down. -/
theorem witness_FrameOfProgramCounter : (∃ t, exec .cls State.reset = .next t) ∧
    Instr.cls ≠ .ret ∧ (∀ n, Instr.cls ≠ .jp n) ∧ (∀ n, Instr.cls ≠ .call n) ∧
    (∀ n, Instr.cls ≠ .jpV0 n) ∧ (∀ x n, Instr.cls ≠ .seImm x n) ∧
    (∀ x n, Instr.cls ≠ .sneImm x n) ∧ (∀ x y, Instr.cls ≠ .seReg x y) ∧
    (∀ x y, Instr.cls ≠ .sneReg x y) ∧ (∀ x, Instr.cls ≠ .skp x) ∧ (∀ x, Instr.cls ≠ .sknp x) ∧
    (∀ x, Instr.cls ≠ .ldVxK x) ∧
    (∃ t, exec (.ldVxK 3) keyDown15 = .next t) ∧ keyDown15.io.keys ≠ 0 :=
  ⟨⟨_, rfl⟩, nofun, nofun, nofun, nofun, nofun, nofun, nofun, nofun, nofun, nofun, nofun, ⟨_, rfl⟩,
    by decide⟩

/-- One instruction that reads neither input. -/
theorem witness_InputsMatterOnlyWhereRead : (∃ t, exec (.addReg 1 2) State.reset = .next t) ∧
    (∀ x, Instr.addReg 1 2 ≠ .skp x) ∧ (∀ x, Instr.addReg 1 2 ≠ .sknp x) ∧
    (∀ x, Instr.addReg 1 2 ≠ .ldVxK x) ∧ ∀ x nn, Instr.addReg 1 2 ≠ .rnd x nn :=
  ⟨⟨_, rfl⟩, nofun, nofun, nofun, nofun⟩

/-- Fifteen live entries, and sixteen. -/
theorem witness_CallPushesReturnAddress :
    (State.reset.setStack State.reset.stack 15).sp.val < 16 ∧
    (State.reset.setStack State.reset.stack 16).sp.val = 16 := by decide

/-- One live entry, and sixteen. -/
theorem witness_ReturnPopsProgramCounter :
    0 < (State.reset.setStack State.reset.stack 1).sp.val ∧
    0 < (State.reset.setStack State.reset.stack 16).sp.val := by decide

theorem witness_ReturnOnEmptyStackHalts : State.reset.sp.val = 0 := by decide

/-- The deepest call, and entries on both sides of the one a call pushes. -/
theorem witness_CallThenReturnComesBack :
    (State.reset.setStack State.reset.stack 15).sp.val < 16 ∧
    (14 : Fin 16).val ≠ (State.reset.setStack State.reset.stack 15).sp.val ∧
    (1 : Fin 16).val ≠ State.reset.sp.val := by decide

/-- The highest target, and the one above it. -/
theorem witness_IndexedJumpAddsRegisterZero :
    (0xFFE : Addr).toNat + ((regs [(0, 1)]).reg 0).toNat ≤ 0xFFF ∧
    0xFFF < (0xFFE : Addr).toNat + ((regs [(0, 2)]).reg 0).toNat := by decide

theorem witness_RegisterSkips : (1 : Nibble) ≠ 0 := by decide

/-- A register other than the destination: `V14` where the destination is `V15` (the flag clause of
the arithmetic statements), `V0` where it is `V14`. -/
theorem witness_OneRegisterWritten :
    (14 : Reg) ≠ 15 ∧ (0 : Reg) ≠ 14 ∧ (0 : Reg) ≠ 15 ∧ 7 < 8 := by decide

/-- The last range that fits, an address outside it, and the end of the glyph rows. -/
theorem witness_DecimalStoreWritesDigits :
    (State.reset.setI 0xFFD).i.toNat + 2 ≤ 0xFFF ∧ ¬ storesTo (.ldB 0) (State.reset.setI 0xFFD) 0xFFC :=
  ⟨by decide, fun h => absurd h.1 (by decide)⟩

theorem witness_StoreRegistersWritesRange :
    (State.reset.setI 0xFF0).i.toNat + (15 : Reg).val ≤ 0xFFF ∧ (15 : Reg) ≤ 15 ∧
      ¬ storesTo (.storeRegs 15) (State.reset.setI 0xFF0) 0xFEF :=
  ⟨by decide, by decide, fun h => absurd h.1 (by decide)⟩

theorem witness_LoadRegistersReadsRange :
    (State.reset.setI 0xFF1).i.toNat + (14 : Reg).val ≤ 0xFFF ∧ (14 : Reg) ≤ 14 ∧ (14 : Reg) < 15 := by
  decide

/-- The first range of each form that does not fit. -/
theorem witness_TransfersPastEndHalt :
    0xFFF < (State.reset.setI 0xFFE).i.toNat + 2 ∧
    0xFFF < (State.reset.setI 0xFF1).i.toNat + (15 : Reg).val ∧ 0 < 1 ∧
    0xFFF < (State.reset.setI 0x1000).i.toNat + (1 - 1) := by decide

/-- The last range that fits. -/
theorem witness_DrawXorsWrappedSprite :
    15 < 16 ∧ (State.reset.setI 0xFF1).i.toNat + 15 ≤ 0x1000 ∧ (14 : Reg) ≠ 15 := by decide

theorem witness_DrawTwiceRestoresFramebuffer :
    15 < 16 ∧ (14 : Reg) ≠ 15 ∧ (0 : Reg) ≠ 15 ∧
    (State.reset.setI 0xFF1).i.toNat + 15 ≤ 0x1000 := by decide

/-- No key down; and the highest key alone. -/
theorem witness_KeyWaitTakesLowestKey :
    State.reset.io.keys = 0 ∧
    (let s := State.reset.setIo { State.reset.io with keys := 0x8000 }
     s.io.keys.getLsbD (15 : Fin 16) = true ∧
      ∀ j : Fin 16, j < 15 → s.io.keys.getLsbD j = false) := by decide

theorem witness_TicksComposeAndStopAtZero : (State.reset.setST 3).st.toNat ≤ 3 := by decide

/-- The longest image that fits, its last byte, and the addresses beside a short one. -/
theorem witness_LoadCopiesImage :
    State.reset.io.boot = .afterReset ∧ (List.replicate 3584 (0xFF : Byte)).length ≤ 3584 ∧
    3583 < (List.replicate 3584 (0xFF : Byte)).length ∧ 0x1FF < 0x200 ∧
    0x200 + (List.replicate 2 (0xFF : Byte)).length ≤ 0x202 ∧ 0x202 < 4096 := by
  simp only [List.length_replicate]
  decide

/-- One byte too many; a failed load; and each way a load is refused. -/
theorem witness_LoadRejectsWhatDoesNotFit :
    State.reset.io.boot = .afterReset ∧ 3584 < (List.replicate 3585 (0xFF : Byte)).length ∧
    (State.reset.setIo { State.reset.io with boot := .loadFailed }).io.boot = .loadFailed ∧
    (State.reset.setIo { State.reset.io with boot := .cycling }).io.boot ≠ .afterReset ∧
    (0x201 : Nat) ≠ 0x200 := by
  simp only [List.length_replicate]
  decide

/-- The last font byte, the first address past any font, and the last byte of memory. -/
theorem witness_ResetClearsEverything : 79 < 80 ∧ 0x200 < 4096 ∧ 0xFFF < 4096 ∧
    Config.fontBase.val + 80 ≤ 0x200 ∧ Config.fontBase.val + 80 ≤ 0xFFF := by
  have := Config.fontBase.isLt
  omega

theorem witness_SelfJumpIsFixedPoint :
    (placeWord State.reset 0x1200).selfJump ∧
    (placeWord State.reset 0x1200).io.boot ≠ .loadFailed ∧
    (placeWord State.reset 0x1200).io.pending = [] :=
  ⟨⟨by decide, by decide, 0x200, by decide, by decide⟩, by decide, by decide⟩

end Sys2Proof.Tests
end

section
/-! PROOFS of the cycle's statements (spec/40_cycle.md). -/

namespace Sys2Proof.Machine

/-- The advance of `PC` from an address a fetch may read does not wrap (R91, R92). -/
theorem pc_add_two_toNat {pc : Word} (h : pc.toNat ≤ 0xFFE) : (pc + 2).toNat = pc.toNat + 2 :=
  BitVec.toNat_add_of_lt (show pc.toNat + 2 < 2 ^ 16 by omega)

/-- Settles O8: the next state is the one `cycle_unknown` gives, and it differs from the old one in
`PC`, `MODE` and the record `io` only. -/
theorem unknownOpcodeIsReportedNoOp : Obligations.UnknownOpcodeIsReportedNoOp := by
  intro s keys rnd hmode hpc hdecode
  refine ⟨_, cycle_unknown hmode hpc hdecode keys rnd, ?report, ?frame, ?advance⟩
  case report => rfl
  case frame => rfl
  case advance => exact pc_add_two_toNat hpc

end Sys2Proof.Machine
end

section
/-! PROOFS of the control flow statements (spec/41_control_flow.md): a jump, a call, the indexed jump
and the four skips. -/

namespace Sys2Proof.Machine

open Sys2Proof.Laws

/-! ### A push, read back (R27) -/

theorem State.push_sp_val {s : State} (h : s.sp.val < 16) (w : Word) :
    (s.push w).sp.val = s.sp.val + 1 :=
  Nat.mod_eq_of_lt (show s.sp.val + 1 < 17 by omega)

/-- A stack entry after a push: the word pushed at the old `SP`, the old entry at every other index. -/
theorem State.stackEntry_push (s : State) (w : Word) (k : Fin 16) :
    (s.push w).stackEntry k = if k.val = s.sp.val then w else s.stackEntry k := by
  simp only [State.stackEntry, State.push_eq, State.setStack_stack, Fin.getElem_fin,
    Vector.getElem_setIfInBounds, eq_comm]

/-! ### The target of the indexed jump (R103) -/

/-- A target inside memory keeps its value as a word. -/
theorem State.toNat_ofNat_indexedTarget {s : State} {nnn : Addr} (h : s.indexedTarget nnn ≤ 0xFFF) :
    (BitVec.ofNat 16 (s.indexedTarget nnn)).toNat = s.indexedTarget nnn :=
  (BitVec.toNat_ofNat ..).trans (Nat.mod_eq_of_lt (by omega))

/-! ### Skips on a comparison of bytes (R92) -/

theorem State.skipIf_beq (s : State) (a b : Byte) :
    s.skipIf (a == b) = { s with pc := if a.toNat = b.toNat then s.pc + 2 else s.pc } := by
  simp only [State.skipIf, State.setPC, beq_iff_eq, BitVec.toNat_inj]

theorem State.skipIf_bne (s : State) (a b : Byte) :
    s.skipIf (a != b) = { s with pc := if a.toNat = b.toNat then s.pc else s.pc + 2 } := by
  simp only [State.skipIf, State.setPC, bne_iff_ne, ne_eq, ite_not, BitVec.toNat_inj]

/-! ### Unknown words of the families 5 and 9 (R75, D17) -/

/-- A family digit and low digit of no row make an unknown word, whatever the registers. -/
theorem decodeWord_formatXYN_eq_none {f n : Nibble}
    (h : ∀ r ∈ opcodeRows, formatXYN f 0 0 n &&& r.mask ≠ r.bits &&& 0xF00F) (x y : Reg) :
    decodeWord (formatXYN f x y n) = none :=
  decodeWord_eq_none_of_differ (formatXYN_familyAndDigit f x y n) h

/-- No row has family 5 or 9 and a low digit other than 0. -/
theorem opcodeRows_differ_from_family_5_9 : ∀ f ∈ [(0x5 : Nibble), 0x9], ∀ n : Nibble, n ≠ 0 →
    ∀ r ∈ opcodeRows, formatXYN f 0 0 n &&& r.mask ≠ r.bits &&& 0xF00F := by decide

/-! ### The statements -/

/-- Settles O26: the jump has no cause to halt, and the state it completes with differs in `PC`. -/
theorem jumpSetsProgramCounter : Obligations.JumpSetsProgramCounter := fun nnn _ =>
  ⟨RoundTrip.jp nnn rfl, _, exec_completes rfl, addressOf_toNat nnn, rfl⟩

/-- Settles O27: the call has a cause to halt exactly when `SP` is 16; else it pushes, and the push
is read back. -/
theorem callPushesReturnAddress : Obligations.CallPushesReturnAddress := by
  intro nnn s
  refine ⟨RoundTrip.call nnn rfl, fun h => ?room, fun h => ?full⟩
  case room =>
    have hcause : haltCause (.call nnn) s = none := if_neg (by omega)
    refine ⟨_, exec_completes hcause, addressOf_toNat nnn, State.push_sp_val h s.pc, ?pushed,
      fun k hk => ?other, rfl⟩
    case pushed => exact (State.stackEntry_push s s.pc _).trans (if_pos rfl)
    case other => exact (State.stackEntry_push s s.pc k).trans (if_neg hk)
  case full => exact exec_halts (if_pos h)

/-- Settles O31: a target above 0xFFF is the one cause to halt; a lower one does not wrap. -/
theorem indexedJumpAddsRegisterZero : Obligations.IndexedJumpAddsRegisterZero := by
  intro nnn s
  refine ⟨RoundTrip.jpV0 nnn rfl, fun h => ?inside, fun h => ?outside⟩
  case inside =>
    have hcause : haltCause (.jpV0 nnn) s = none := if_neg (by omega)
    exact ⟨_, exec_completes hcause, State.toNat_ofNat_indexedTarget h, rfl⟩
  case outside => exact exec_halts (if_pos h)

/-- Settles O32: neither skip has a cause to halt, and each completes with a skip on a comparison. -/
theorem immediateSkips : Obligations.ImmediateSkips := by
  intro x nn s
  refine ⟨RoundTrip.seImm x nn rfl, RoundTrip.sneImm x nn rfl, ?equal, ?different⟩
  case equal => rw [exec_completes rfl, completed, State.skipIf_beq]
  case different => rw [exec_completes rfl, completed, State.skipIf_bne]

/-- Settles O33: as for the immediate skips; with another low digit no row matches the word. -/
theorem registerSkips : Obligations.RegisterSkips := by
  intro x y s
  refine ⟨RoundTrip.seReg x y rfl, RoundTrip.sneReg x y rfl, fun n hn => ⟨?unknown5, ?unknown9⟩,
    ?equal, ?different⟩
  case unknown5 =>
    exact decodeWord_formatXYN_eq_none (opcodeRows_differ_from_family_5_9 0x5 (by simp) n hn) x y
  case unknown9 =>
    exact decodeWord_formatXYN_eq_none (opcodeRows_differ_from_family_5_9 0x9 (by simp) n hn) x y
  case equal => rw [exec_completes rfl, completed, State.skipIf_beq]
  case different => rw [exec_completes rfl, completed, State.skipIf_bne]

end Sys2Proof.Machine
end

section
/-! PROOFS of the arithmetic statements (spec/42_arithmetic_logic.md): the two immediate forms. -/

namespace Sys2Proof.Machine

open Sys2Proof.Laws

/-- Settles O34: the load has no cause to halt, and the state it completes with is the old one with
`V[x]` written. -/
theorem loadImmediateWritesRegister : Obligations.LoadImmediateWritesRegister := by
  intro x nn s
  refine ⟨RoundTrip.ldImm x nn rfl, _, exec_completes rfl, ?written, fun r hr => ?others, rfl⟩
  case written => exact State.reg_setReg_same s x nn
  case others => exact State.reg_setReg_other s hr nn

/-- Settles O35: the sum of two bytes is the sum modulo 256, and the one register written is `V[x]`,
so `VF` is written only where it is the destination (R123). -/
theorem addImmediateWritesNoFlag : Obligations.AddImmediateWritesNoFlag := by
  intro x nn s
  refine ⟨RoundTrip.addImm x nn rfl, _, exec_completes rfl, ?sum, fun r hr => ?others, rfl⟩
  case sum =>
    exact (congrArg BitVec.toNat (State.reg_setReg_same s x _)).trans (BitVec.toNat_add _ _)
  case others => exact State.reg_setReg_other s hr _

end Sys2Proof.Machine
end

section
/-! PROOFS of the index register and memory statements (spec/43_index_memory.md): the load of `I`. -/

namespace Sys2Proof.Machine

open Sys2Proof.Laws

/-- Settles O41: the load has no cause to halt, and the state it completes with is the old one with
`I` written; a 12-bit address keeps its value as a word. -/
theorem loadIndexWritesAddress : Obligations.LoadIndexWritesAddress := by
  intro nnn s
  refine ⟨RoundTrip.ldI nnn rfl, _, exec_completes rfl, ?address, ?frame⟩
  case address => exact addressOf_toNat nnn
  case frame => rfl

end Sys2Proof.Machine
end

section
/-! PROOFS of the display statements (spec/44_display.md): the clear. -/

namespace Sys2Proof.Machine

open Sys2Proof.Laws

/-- Settles O48: the clear has no cause to halt, and the state it completes with is the old one with
the cleared framebuffer, whose every pixel is off. -/
theorem clearTurnsEveryPixelOff : Obligations.ClearTurnsEveryPixelOff := by
  intro s
  refine ⟨RoundTrip.cls rfl, _, exec_completes rfl, fun px py => ?off, ?frame⟩
  case off => exact (State.pixel_setFB s _ px py).trans (Framebuffer.pixel_clear px py)
  case frame => rfl

end Sys2Proof.Machine
end

section
/-! PROOFS of the exceptions' statements (spec/60_exceptions.md): the return on an empty stack. -/

namespace Sys2Proof.Machine

/-- Settles O29: an empty stack is the return's one cause to halt, and a halt writes `MODE` and `CAUSE`
only, so `SP` and the advanced `PC` stay. -/
theorem returnOnEmptyStackHalts : Obligations.ReturnOnEmptyStackHalts := by
  intro s hempty
  have hcause : haltCause .ret s = some .stackUnderflow := if_pos hempty
  exact exec_halts hcause

end Sys2Proof.Machine
end

section
/-! PROOFS of the encoding statements (spec/30_encoding.md): the round trip in both directions, which
words are instructions, and that the rows of the opcode map do not overlap. -/

namespace Sys2Proof

open Sys2Proof.Laws

/-! ### The fixed fields of a word that matches a row (R74) -/

/-- A field that a mask tests whole has the value the match asks for. -/
theorem field_of_masked {op mask bits : Word} {start len : Nat} (h : op &&& mask = bits)
    (hmask : mask.extractLsb' start len = BitVec.allOnes len) :
    op.extractLsb' start len = bits.extractLsb' start len := by
  rw [← h, BitVec.extractLsb'_and, hmask, BitVec.and_allOnes]

/-- What `encode` does to the instruction a row builds from any word it matches: it is well-formed, and
its encoding is that word. -/
def OpcodeRow.EncodesBack (r : OpcodeRow) : Prop :=
  ∀ op : Word, r.matches op = true → (r.build op).wellFormed = true ∧ encode (r.build op) = op

theorem encodesBack_fixed {bits : Word} {i : Instr} (hwf : i.wellFormed = true)
    (henc : encode i = bits) : OpcodeRow.EncodesBack ⟨0xFFFF, bits, fun _ => i⟩ := by
  intro op h
  have hop : op &&& BitVec.allOnes 16 = bits := beq_iff_eq.1 h
  exact ⟨hwf, henc.trans (hop.symm.trans BitVec.and_allOnes)⟩

theorem encodesBack_NNN {bits : Word} {build : Word → Instr} (f : Nibble)
    (hf : bits.extractLsb' 12 4 = f) (hwf : ∀ op, (build op).wellFormed = true)
    (henc : ∀ op, encode (build op) = formatNNN f (fieldNNN op)) :
    OpcodeRow.EncodesBack ⟨0xF000, bits, build⟩ := by
  intro op h
  have hop : op &&& 0xF000 = bits := beq_iff_eq.1 h
  have hfamily := field_of_masked (start := 12) (len := 4) hop (by decide)
  exact ⟨hwf op, by rw [henc, ← hf, ← hfamily, formatNNN_fields]⟩

theorem encodesBack_XNN {bits : Word} {build : Word → Instr} (f : Nibble)
    (hf : bits.extractLsb' 12 4 = f) (hwf : ∀ op, (build op).wellFormed = true)
    (henc : ∀ op, encode (build op) = formatXNN f (fieldX op) (fieldNN op)) :
    OpcodeRow.EncodesBack ⟨0xF000, bits, build⟩ := by
  intro op h
  have hop : op &&& 0xF000 = bits := beq_iff_eq.1 h
  have hfamily := field_of_masked (start := 12) (len := 4) hop (by decide)
  exact ⟨hwf op, by rw [henc, ← hf, ← hfamily, formatXNN_fields]⟩

theorem encodesBack_XSS {bits : Word} {build : Word → Instr} (f : Nibble) (nn : Byte)
    (hf : bits.extractLsb' 12 4 = f) (hnn : bits.extractLsb' 0 8 = nn)
    (hwf : ∀ op, (build op).wellFormed = true)
    (henc : ∀ op, encode (build op) = formatXNN f (fieldX op) nn) :
    OpcodeRow.EncodesBack ⟨0xF0FF, bits, build⟩ := by
  intro op h
  have hop : op &&& 0xF0FF = bits := beq_iff_eq.1 h
  have hfamily := field_of_masked (start := 12) (len := 4) hop (by decide)
  have hbyte : fieldNN op = nn :=
    (field_of_masked (start := 0) (len := 8) hop (by decide)).trans hnn
  exact ⟨hwf op, by rw [henc, ← hf, ← hfamily, ← hbyte, formatXNN_fields]⟩

theorem encodesBack_XYN {bits : Word} {build : Word → Instr} (f : Nibble)
    (hf : bits.extractLsb' 12 4 = f) (hwf : ∀ op, (build op).wellFormed = true)
    (henc : ∀ op, encode (build op) = formatXYN f (fieldX op) (fieldY op) (op.extractLsb' 0 4)) :
    OpcodeRow.EncodesBack ⟨0xF000, bits, build⟩ := by
  intro op h
  have hop : op &&& 0xF000 = bits := beq_iff_eq.1 h
  have hfamily := field_of_masked (start := 12) (len := 4) hop (by decide)
  exact ⟨hwf op, by rw [henc, ← hf, ← hfamily, formatXYN_fields]⟩

theorem encodesBack_XYS {bits : Word} {build : Word → Instr} (f n : Nibble)
    (hf : bits.extractLsb' 12 4 = f) (hn : bits.extractLsb' 0 4 = n)
    (hwf : ∀ op, (build op).wellFormed = true)
    (henc : ∀ op, encode (build op) = formatXYN f (fieldX op) (fieldY op) n) :
    OpcodeRow.EncodesBack ⟨0xF00F, bits, build⟩ := by
  intro op h
  have hop : op &&& 0xF00F = bits := beq_iff_eq.1 h
  have hfamily := field_of_masked (start := 12) (len := 4) hop (by decide)
  have hdigit : op.extractLsb' 0 4 = n :=
    (field_of_masked (start := 0) (len := 4) hop (by decide)).trans hn
  exact ⟨hwf op, by rw [henc, ← hf, ← hfamily, ← hdigit, formatXYN_fields]⟩

theorem opcodeRowsLow_encodeBack : ∀ r ∈ opcodeRowsLow, r.EncodesBack := by
  simp only [opcodeRowsLow, List.forall_mem_cons]
  refine ⟨encodesBack_fixed rfl rfl, encodesBack_fixed rfl rfl, ?jp, ?call, ?seImm, ?sneImm, ?seReg,
    ?ldImm, ?addImm, List.forall_mem_nil _⟩
  case jp => exact encodesBack_NNN 0x1 rfl (fun _ => rfl) fun _ => rfl
  case call => exact encodesBack_NNN 0x2 rfl (fun _ => rfl) fun _ => rfl
  case seImm => exact encodesBack_XNN 0x3 rfl (fun _ => rfl) fun _ => rfl
  case sneImm => exact encodesBack_XNN 0x4 rfl (fun _ => rfl) fun _ => rfl
  case seReg => exact encodesBack_XYS 0x5 0x0 rfl rfl (fun _ => rfl) fun _ => rfl
  case ldImm => exact encodesBack_XNN 0x6 rfl (fun _ => rfl) fun _ => rfl
  case addImm => exact encodesBack_XNN 0x7 rfl (fun _ => rfl) fun _ => rfl

theorem fieldN_lt (op : Word) : fieldN op < 16 := (op.extractLsb' 0 4).isLt

theorem opcodeRowsMiddle_encodeBack : ∀ r ∈ opcodeRowsMiddle, r.EncodesBack := by
  simp only [opcodeRowsMiddle, List.forall_mem_cons]
  refine ⟨?ldReg, ?orReg, ?andReg, ?xorReg, ?addReg, ?subReg, ?shr, ?subnReg, ?shl, ?sneReg, ?ldI,
    ?jpV0, ?rnd, ?drw, List.forall_mem_nil _⟩
  case ldReg => exact encodesBack_XYS 0x8 0x0 rfl rfl (fun _ => rfl) fun _ => rfl
  case orReg => exact encodesBack_XYS 0x8 0x1 rfl rfl (fun _ => rfl) fun _ => rfl
  case andReg => exact encodesBack_XYS 0x8 0x2 rfl rfl (fun _ => rfl) fun _ => rfl
  case xorReg => exact encodesBack_XYS 0x8 0x3 rfl rfl (fun _ => rfl) fun _ => rfl
  case addReg => exact encodesBack_XYS 0x8 0x4 rfl rfl (fun _ => rfl) fun _ => rfl
  case subReg => exact encodesBack_XYS 0x8 0x5 rfl rfl (fun _ => rfl) fun _ => rfl
  case shr => exact encodesBack_XYS 0x8 0x6 rfl rfl (fun _ => rfl) fun _ => rfl
  case subnReg => exact encodesBack_XYS 0x8 0x7 rfl rfl (fun _ => rfl) fun _ => rfl
  case shl => exact encodesBack_XYS 0x8 0xE rfl rfl (fun _ => rfl) fun _ => rfl
  case sneReg => exact encodesBack_XYS 0x9 0x0 rfl rfl (fun _ => rfl) fun _ => rfl
  case ldI => exact encodesBack_NNN 0xA rfl (fun _ => rfl) fun _ => rfl
  case jpV0 => exact encodesBack_NNN 0xB rfl (fun _ => rfl) fun _ => rfl
  case rnd => exact encodesBack_XNN 0xC rfl (fun _ => rfl) fun _ => rfl
  case drw =>
    refine encodesBack_XYN 0xD rfl (fun op => decide_eq_true (fieldN_lt op)) fun op => ?_
    exact congrArg (formatXYN 0xD (fieldX op) (fieldY op))
      ((BitVec.ofNat_toNat ..).trans (BitVec.setWidth_eq _))

theorem opcodeRowsHigh_encodeBack : ∀ r ∈ opcodeRowsHigh, r.EncodesBack := by
  simp only [opcodeRowsHigh, List.forall_mem_cons]
  refine ⟨?skp, ?sknp, ?ldVxDT, ?ldVxK, ?ldDTVx, ?ldSTVx, ?addI, ?ldF, ?ldB, ?storeRegs, ?loadRegs,
    List.forall_mem_nil _⟩
  case skp => exact encodesBack_XSS 0xE 0x9E rfl rfl (fun _ => rfl) fun _ => rfl
  case sknp => exact encodesBack_XSS 0xE 0xA1 rfl rfl (fun _ => rfl) fun _ => rfl
  case ldVxDT => exact encodesBack_XSS 0xF 0x07 rfl rfl (fun _ => rfl) fun _ => rfl
  case ldVxK => exact encodesBack_XSS 0xF 0x0A rfl rfl (fun _ => rfl) fun _ => rfl
  case ldDTVx => exact encodesBack_XSS 0xF 0x15 rfl rfl (fun _ => rfl) fun _ => rfl
  case ldSTVx => exact encodesBack_XSS 0xF 0x18 rfl rfl (fun _ => rfl) fun _ => rfl
  case addI => exact encodesBack_XSS 0xF 0x1E rfl rfl (fun _ => rfl) fun _ => rfl
  case ldF => exact encodesBack_XSS 0xF 0x29 rfl rfl (fun _ => rfl) fun _ => rfl
  case ldB => exact encodesBack_XSS 0xF 0x33 rfl rfl (fun _ => rfl) fun _ => rfl
  case storeRegs => exact encodesBack_XSS 0xF 0x55 rfl rfl (fun _ => rfl) fun _ => rfl
  case loadRegs => exact encodesBack_XSS 0xF 0x65 rfl rfl (fun _ => rfl) fun _ => rfl

/-- The instruction any row of the opcode map builds from a word it matches encodes back to it. -/
theorem opcodeRows_encodeBack : ∀ r ∈ opcodeRows, r.EncodesBack := by
  simp only [opcodeRows, List.forall_mem_append]
  exact ⟨⟨opcodeRowsLow_encodeBack, opcodeRowsMiddle_encodeBack⟩, opcodeRowsHigh_encodeBack⟩

/-- Settles O3: the word decodes by a row that matches it, and each row encodes back. -/
theorem encodeOfDecodeIsWord : Obligations.EncodeOfDecodeIsWord := by
  intro op i h
  obtain ⟨r, hr, hm, rfl⟩ := row_of_decodeWord h
  exact opcodeRows_encodeBack r hr op hm

/-- Settles O2: one round trip per instruction. -/
theorem decodeOfEncodeIsInstruction : Obligations.DecodeOfEncodeIsInstruction := by
  intro i
  cases i with
  | cls => exact RoundTrip.cls
  | ret => exact RoundTrip.ret
  | jp nnn => exact RoundTrip.jp nnn
  | call nnn => exact RoundTrip.call nnn
  | seImm x nn => exact RoundTrip.seImm x nn
  | sneImm x nn => exact RoundTrip.sneImm x nn
  | seReg x y => exact RoundTrip.seReg x y
  | ldImm x nn => exact RoundTrip.ldImm x nn
  | addImm x nn => exact RoundTrip.addImm x nn
  | ldReg x y => exact RoundTrip.ldReg x y
  | orReg x y => exact RoundTrip.orReg x y
  | andReg x y => exact RoundTrip.andReg x y
  | xorReg x y => exact RoundTrip.xorReg x y
  | addReg x y => exact RoundTrip.addReg x y
  | subReg x y => exact RoundTrip.subReg x y
  | shr x y => exact RoundTrip.shr x y
  | subnReg x y => exact RoundTrip.subnReg x y
  | shl x y => exact RoundTrip.shl x y
  | sneReg x y => exact RoundTrip.sneReg x y
  | ldI nnn => exact RoundTrip.ldI nnn
  | jpV0 nnn => exact RoundTrip.jpV0 nnn
  | rnd x nn => exact RoundTrip.rnd x nn
  | drw x y n => exact RoundTrip.drw x y n
  | skp x => exact RoundTrip.skp x
  | sknp x => exact RoundTrip.sknp x
  | ldVxDT x => exact RoundTrip.ldVxDT x
  | ldVxK x => exact RoundTrip.ldVxK x
  | ldDTVx x => exact RoundTrip.ldDTVx x
  | ldSTVx x => exact RoundTrip.ldSTVx x
  | addI x => exact RoundTrip.addI x
  | ldF x => exact RoundTrip.ldF x
  | ldB x => exact RoundTrip.ldB x
  | storeRegs x => exact RoundTrip.storeRegs x
  | loadRegs x => exact RoundTrip.loadRegs x

/-- Settles O5: any two rows differ on a bit both masks test. -/
theorem opcodePatternsDoNotOverlap : Obligations.OpcodePatternsDoNotOverlap :=
  opcodeRows_differ.imp fun h => not_both_match h

/-! ### Matching as a test on numbers (R75) -/

theorem familyDigit_toNat (op : Word) : (op.extractLsb' 12 4).toNat = op.toNat / 4096 := by
  have := op.isLt
  rw [BitVec.extractLsb'_toNat, Nat.shiftRight_eq_div_pow]
  omega

/-- What the mask of a family decided by its digit keeps of a word. -/
theorem masked_family_toNat (op : Word) : (op &&& 0xF000#16).toNat = 4096 * (op.toNat / 4096) := by
  have h := formatNNN_family (op.extractLsb' 12 4) (fieldNNN op)
  rw [formatNNN_fields] at h
  refine (congrArg BitVec.toNat h).trans ?_
  rw [formatNNN, BitVec.toNat_append, familyDigit_toNat, Nat.shiftLeft_eq]
  simp [Nat.mul_comm]

/-- What the mask of a family decided by its low digit keeps of a word. -/
theorem masked_familyAndDigit_toNat (op : Word) :
    (op &&& 0xF00F#16).toNat = 4096 * (op.toNat / 4096) + op.toNat % 16 := by
  have h := formatXYN_familyAndDigit (op.extractLsb' 12 4) (fieldX op) (fieldY op)
    (op.extractLsb' 0 4)
  rw [formatXYN_fields] at h
  refine (congrArg BitVec.toNat h).trans ?_
  rw [formatXYN, BitVec.toNat_append, ← Nat.shiftLeft_add_eq_or_of_lt (BitVec.isLt _),
    BitVec.extractLsb'_toNat, BitVec.toNat_append, BitVec.toNat_append, familyDigit_toNat]
  simp [Nat.shiftLeft_eq]
  omega

/-- What the mask of a family decided by its low byte keeps of a word. -/
theorem masked_familyAndByte_toNat (op : Word) :
    (op &&& 0xF0FF#16).toNat = 4096 * (op.toNat / 4096) + op.toNat % 256 := by
  have h := formatXNN_familyAndByte (op.extractLsb' 12 4) (fieldX op) (fieldNN op)
  rw [formatXNN_fields] at h
  refine (congrArg BitVec.toNat h).trans ?_
  rw [formatXNN, BitVec.toNat_append, ← Nat.shiftLeft_add_eq_or_of_lt (BitVec.isLt _),
    fieldNN, BitVec.extractLsb'_toNat, BitVec.toNat_append, familyDigit_toNat]
  simp [Nat.shiftLeft_eq]
  omega

section
variable {bits : Word} {build : Word → Instr} {op : Word}

/-- A row that tests the whole word matches that word alone. -/
theorem matches_word : (OpcodeRow.mk 0xFFFF#16 bits build).matches op = true ↔ op = bits := by
  have hop : op &&& 0xFFFF#16 = op := BitVec.and_allOnes
  exact beq_iff_eq.trans (by rw [hop])

/-- A row matches by the numbers its mask keeps. -/
theorem matches_iff_toNat {mask : Word} :
    (OpcodeRow.mk mask bits build).matches op = true ↔ (op &&& mask).toNat = bits.toNat :=
  beq_iff_eq.trans BitVec.toNat_inj.symm

/-- A row that tests the family digit matches by that digit. -/
theorem matches_family (h : bits.toNat % 4096 = 0) :
    (OpcodeRow.mk 0xF000#16 bits build).matches op = true ↔
      op.toNat / 4096 = bits.toNat / 4096 := by
  rw [matches_iff_toNat, masked_family_toNat]
  omega

/-- A row that tests the family digit and the low digit matches by the two. -/
theorem matches_familyAndDigit (h : bits.toNat % 4096 < 16) :
    (OpcodeRow.mk 0xF00F#16 bits build).matches op = true ↔
      op.toNat / 4096 = bits.toNat / 4096 ∧ op.toNat % 16 = bits.toNat % 16 := by
  rw [matches_iff_toNat, masked_familyAndDigit_toNat]
  omega

/-- A row that tests the family digit and the low byte matches by the two. -/
theorem matches_familyAndByte (h : bits.toNat % 4096 < 256) :
    (OpcodeRow.mk 0xF0FF#16 bits build).matches op = true ↔
      op.toNat / 4096 = bits.toNat / 4096 ∧ op.toNat % 256 = bits.toNat % 256 := by
  rw [matches_iff_toNat, masked_familyAndByte_toNat]
  omega

end

/-- A word is an instruction exactly when a row matches it. -/
theorem decodeWord_isSome_iff {op : Word} :
    (decodeWord op).isSome = true ↔ ∃ r ∈ opcodeRows, r.matches op = true := by
  simp [decodeWord]

/-- The words of the families 0 to 7. -/
theorem matches_rowsLow (op : Word) : (∃ r ∈ opcodeRowsLow, r.matches op = true) ↔
    op = 0x00E0 ∨ op = 0x00EE ∨ op.toNat / 4096 ∈ [1, 2, 3, 4] ∨
      (op.toNat / 4096 = 5 ∧ op.toNat % 16 = 0) ∨ op.toNat / 4096 ∈ [6, 7] := by
  simp (disch := decide) [opcodeRowsLow, matches_word, matches_family, matches_familyAndDigit,
    or_assoc]

/-- The words of the families 8 to D. -/
theorem matches_rowsMiddle (op : Word) : (∃ r ∈ opcodeRowsMiddle, r.matches op = true) ↔
    (op.toNat / 4096 = 8 ∧ op.toNat % 16 ∈ [0, 1, 2, 3, 4, 5, 6, 7, 0xE]) ∨
      (op.toNat / 4096 = 9 ∧ op.toNat % 16 = 0) ∨ op.toNat / 4096 ∈ [0xA, 0xB, 0xC, 0xD] := by
  simp (disch := decide) [opcodeRowsMiddle, matches_family, matches_familyAndDigit, and_or_left,
    or_assoc]

/-- The words of the families E and F. -/
theorem matches_rowsHigh (op : Word) : (∃ r ∈ opcodeRowsHigh, r.matches op = true) ↔
    (op.toNat / 4096 = 0xE ∧ op.toNat % 256 ∈ [0x9E, 0xA1]) ∨
      (op.toNat / 4096 = 0xF ∧
        op.toNat % 256 ∈ [0x07, 0x0A, 0x15, 0x18, 0x1E, 0x29, 0x33, 0x55, 0x65]) := by
  simp (disch := decide) [opcodeRowsHigh, matches_familyAndByte, and_or_left, or_assoc]

/-- Settles O4: a word is an instruction exactly when a row of one of the three groups matches it. -/
theorem definedWordsByFamily : Obligations.DefinedWordsByFamily := by
  intro op
  have hgroups : (∃ r ∈ opcodeRows, r.matches op = true) ↔
      (∃ r ∈ opcodeRowsLow, r.matches op = true) ∨
        (∃ r ∈ opcodeRowsMiddle, r.matches op = true) ∨
          ∃ r ∈ opcodeRowsHigh, r.matches op = true := by
    simp only [opcodeRows, List.mem_append, or_and_right, exists_or, or_assoc]
  rw [decodeWord_isSome_iff, hgroups, matches_rowsLow, matches_rowsMiddle, matches_rowsHigh]
  simp only [List.mem_cons, List.not_mem_nil, or_false]
  grind

/-- Settles O1: the decoder run on each word. -/
theorem opcodeWordsDecodeAsWritten : Obligations.OpcodeWordsDecodeAsWritten := by
  unfold Obligations.OpcodeWordsDecodeAsWritten
  decide

end Sys2Proof
end

section
/-! PROOFS of the rules over all instructions: when an instruction halts (spec/60_exceptions.md), the
`MODE` it leaves (spec/40_cycle.md), what it may write (its frame), and which inputs it reads. A frame
is proved of the two things an instruction can do: to halt, or to complete. -/

namespace Sys2Proof.Machine

/-! ### The key wait (R164) -/

/-- With no key down the key wait holds. -/
theorem completed_ldVxK_waits {s : State} (h : s.io.keys = 0) (x : Reg) :
    completed (.ldVxK x) s = s.holdForKey := by
  simp only [completed, (State.lowestKey_eq_none s).2 h]

/-- With a key down it takes the lowest one. -/
theorem completed_ldVxK_takes {s : State} {k : Fin 16} (h : s.lowestKey = some k) (x : Reg) :
    completed (.ldVxK x) s = s.setReg x (BitVec.ofNat 8 k.val) := by
  simp only [completed, h]

/-- The two things a key wait can do. -/
theorem completed_ldVxK_cases (x : Reg) (s : State) :
    (s.io.keys = 0 ∧ completed (.ldVxK x) s = s.holdForKey) ∨
      (s.io.keys ≠ 0 ∧ ∃ b, completed (.ldVxK x) s = s.setReg x b) := by
  cases hk : s.lowestKey with
  | none =>
    have hkeys := (State.lowestKey_eq_none s).1 hk
    exact .inl ⟨hkeys, completed_ldVxK_waits hkeys x⟩
  | some k =>
    have hkeys : s.io.keys ≠ 0 := fun h => by simp [(State.lowestKey_eq_none s).2 h] at hk
    exact .inr ⟨hkeys, _, completed_ldVxK_takes hk x⟩

/-- A key wait writes general registers, `PC` and `MODE` only. -/
theorem completed_ldVxK (x : Reg) (s : State) :
    completed (.ldVxK x) s = { s with
      v := (completed (.ldVxK x) s).v
      pc := (completed (.ldVxK x) s).pc
      mode := (completed (.ldVxK x) s).mode } := by
  obtain ⟨-, h⟩ | ⟨-, b, h⟩ := completed_ldVxK_cases x s
  · rw [h]; rfl
  · rw [h]; rfl

/-! ### What a completed instruction leaves as it was -/

/-- A piece of state that neither halting nor the instruction's own effect changes. -/
theorem exec_frame {α : Type} (f : State → α) {i : Instr} {s t : State} (h : exec i s = .next t)
    (hhalted : ∀ c, f (s.setStatus .halt c) = f s) (hcompleted : f (completed i s) = f s) :
    f t = f s := by
  obtain ⟨c, -, rfl⟩ | ⟨-, rfl⟩ := exec_cases h
  · exact hhalted c
  · exact hcompleted

theorem completed_cause (i : Instr) (s : State) : (completed i s).cause = s.cause := by
  cases i with
  | loadRegs x => rw [completed_loadRegs]
  | ldVxK x => rw [completed_ldVxK]
  | _ => rfl

theorem completed_io (i : Instr) (s : State) : (completed i s).io = s.io := by
  cases i with
  | loadRegs x => rw [completed_loadRegs]
  | ldVxK x => rw [completed_ldVxK]
  | _ => rfl

/-- `MODE` changes only where a key wait holds (R95). -/
theorem completed_mode {i : Instr} {s : State} (h : (∀ x, i ≠ .ldVxK x) ∨ s.io.keys ≠ 0) :
    (completed i s).mode = s.mode := by
  cases i with
  | loadRegs x => rw [completed_loadRegs]
  | ldVxK x =>
    obtain ⟨hkeys, -⟩ | ⟨-, b, hb⟩ := completed_ldVxK_cases x s
    · exact (h.elim (fun hi => hi x rfl) fun hk => hk hkeys).elim
    · rw [hb]; rfl
  | _ => rfl

/-- Completing never halts (R95). -/
theorem completed_mode_ne_halt (i : Instr) {s : State} (hrun : s.mode = .run) :
    (completed i s).mode ≠ .halt := by
  by_cases hkey : (∀ x, i ≠ .ldVxK x) ∨ s.io.keys ≠ 0
  · simp [completed_mode hkey, hrun]
  · obtain ⟨⟨x, rfl⟩, hkeys⟩ : (∃ x, i = .ldVxK x) ∧ s.io.keys = 0 := by simpa using hkey
    simp [completed_ldVxK_waits hkeys]

theorem completed_reg {i : Instr} {r : Reg} (h : writesReg i r = false) (s : State) :
    (completed i s).reg r = s.reg r := by
  cases i with
  | loadRegs x =>
    have hr : ¬ r ≤ x := by simpa [writesReg] using h
    rw [completed_loadRegs_reg, if_neg hr]
  | ldVxK x =>
    have hr : r ≠ x := by simpa [writesReg] using h
    obtain ⟨-, hw⟩ | ⟨-, b, hb⟩ := completed_ldVxK_cases x s
    · rw [hw]; rfl
    · rw [hb, State.reg_setReg_other s hr]
  | ldImm x _ | addImm x _ | ldReg x _ | orReg x _ | andReg x _ | xorReg x _ | rnd x _ | ldVxDT x =>
    exact State.reg_setReg_other s (by simpa [writesReg] using h) _
  | addReg x _ | subReg x _ | shr x _ | subnReg x _ | shl x _ =>
    have hr : r ≠ x ∧ r ≠ regF := by simpa [writesReg] using h
    exact (State.reg_setReg_other _ hr.2 _).trans (State.reg_setReg_other s hr.1 _)
  | drw => exact State.reg_setReg_other _ (by simpa [writesReg] using h) _
  | _ => rfl

theorem completed_mem {i : Instr} (h : storeLength i = 0) (s : State) :
    (completed i s).mem = s.mem := by
  cases i with
  | loadRegs x => rw [completed_loadRegs]
  | ldVxK x => rw [completed_ldVxK]
  | ldB | storeRegs => simp [storeLength] at h
  | _ => rfl

theorem completed_readByte {i : Instr} {s : State} {a : Nat} (h : ¬ storesTo i s a) :
    (completed i s).readByte a = s.readByte a := by
  have hout : a < s.effective 0 ∨ s.effective 0 + storeLength i ≤ a := by
    simp only [storesTo, State.effective] at h ⊢
    omega
  cases i with
  | ldB x => exact Memory.read_load_outside hout
  | storeRegs x => exact Memory.read_load_outside (by simpa [storeLength] using hout)
  | _ => exact congrArg (Memory.read · a) (completed_mem rfl s)

theorem completed_i {i : Instr} (hldI : ∀ nnn, i ≠ .ldI nnn) (haddI : ∀ x, i ≠ .addI x)
    (hldF : ∀ x, i ≠ .ldF x) (s : State) : (completed i s).i = s.i := by
  cases i with
  | loadRegs x => rw [completed_loadRegs]
  | ldVxK x => rw [completed_ldVxK]
  | ldI nnn => exact (hldI nnn rfl).elim
  | addI x => exact (haddI x rfl).elim
  | ldF x => exact (hldF x rfl).elim
  | _ => rfl

theorem completed_stack {i : Instr} (hcall : ∀ nnn, i ≠ .call nnn) (s : State) :
    (completed i s).stack = s.stack := by
  cases i with
  | loadRegs x => rw [completed_loadRegs]
  | ldVxK x => rw [completed_ldVxK]
  | call nnn => exact (hcall nnn rfl).elim
  | _ => rfl

theorem completed_sp {i : Instr} (hcall : ∀ nnn, i ≠ .call nnn) (hret : i ≠ .ret) (s : State) :
    (completed i s).sp = s.sp := by
  cases i with
  | loadRegs x => rw [completed_loadRegs]
  | ldVxK x => rw [completed_ldVxK]
  | call nnn => exact (hcall nnn rfl).elim
  | ret => exact (hret rfl).elim
  | _ => rfl

/-- A call changes the one entry it pushes, and no other instruction changes an entry (R26). -/
theorem completed_stackEntry (i : Instr) {s : State} {k : Fin 16} (hk : k.val ≠ s.sp.val) :
    (completed i s).stackEntry k = s.stackEntry k := by
  cases i with
  | loadRegs x => rw [completed_loadRegs]; rfl
  | ldVxK x => rw [completed_ldVxK]; rfl
  | call nnn => exact (State.stackEntry_push s s.pc k).trans (if_neg hk)
  | _ => rfl

theorem completed_dt {i : Instr} (h : ∀ x, i ≠ .ldDTVx x) (s : State) :
    (completed i s).dt = s.dt := by
  cases i with
  | loadRegs x => rw [completed_loadRegs]
  | ldVxK x => rw [completed_ldVxK]
  | ldDTVx x => exact (h x rfl).elim
  | _ => rfl

theorem completed_st {i : Instr} (h : ∀ x, i ≠ .ldSTVx x) (s : State) :
    (completed i s).st = s.st := by
  cases i with
  | loadRegs x => rw [completed_loadRegs]
  | ldVxK x => rw [completed_ldVxK]
  | ldSTVx x => exact (h x rfl).elim
  | _ => rfl

theorem completed_fb {i : Instr} (hcls : i ≠ .cls) (hdrw : ∀ x y n, i ≠ .drw x y n) (s : State) :
    (completed i s).fb = s.fb := by
  cases i with
  | loadRegs x => rw [completed_loadRegs]
  | ldVxK x => rw [completed_ldVxK]
  | cls => exact (hcls rfl).elim
  | drw x y n => exact (hdrw x y n rfl).elim
  | _ => rfl

/-! ### The causes an instruction can raise (R170) -/

/-- An instruction raises one of the three causes of the table that halt. -/
theorem haltCause_cases {i : Instr} {s : State} {c : Cause} (h : haltCause i s = some c) :
    c = .stackOverflow ∨ c = .stackUnderflow ∨ c = .memoryOutOfBounds := by
  cases i with
  | ret =>
    obtain ⟨-, hc⟩ := Option.ite_some_none_eq_some.1 h
    exact .inr (.inl hc.symm)
  | call =>
    obtain ⟨-, hc⟩ := Option.ite_some_none_eq_some.1 h
    exact .inl hc.symm
  | jpV0 | drw | ldB | storeRegs | loadRegs =>
    obtain ⟨-, hc⟩ := Option.ite_some_none_eq_some.1 h
    exact .inr (.inr hc.symm)
  | _ => cases h

/-- Settles O15: a cause of the table halts with its code; an instruction with no cause completes, and
completing never halts. -/
theorem haltsExactlyWhenSpecSays : Obligations.HaltsExactlyWhenSpecSays := by
  intro i s hrun
  refine ⟨fun c hc => ⟨_, exec_halts hc, rfl, ?codes⟩,
    fun hnone => ⟨_, exec_completes hnone, ?mode, completed_cause i s⟩⟩
  case codes =>
    obtain rfl | rfl | rfl := haltCause_cases hc
    · exact .inl ⟨rfl, rfl⟩
    · exact .inr (.inl ⟨rfl, rfl⟩)
    · exact .inr (.inr ⟨rfl, rfl⟩)
  case mode => exact completed_mode_ne_halt i hrun

/-- Settles O16: a cause halts; without one only a key wait with no key down leaves `RUN`. -/
theorem modeAfterInstruction : Obligations.ModeAfterInstruction := by
  intro i s t hrun h
  obtain ⟨c, hc, rfl⟩ | ⟨hnone, rfl⟩ := exec_cases h
  · refine ⟨by simp [hc], ?_, fun hnone => by simp [hc] at hnone⟩
    rintro ⟨x, rfl⟩
    cases hc
  · refine ⟨?_, ?_, fun _ hkey => (completed_mode hkey).trans hrun⟩
    · simp [hnone, completed_mode_ne_halt i hrun]
    · rintro ⟨x, rfl⟩ hkeys
      rw [completed_ldVxK_waits hkeys]
      exact ⟨rfl, rfl⟩

/-! ### The frames -/

/-- Settles O17: neither a halt nor an effect writes a register outside `writesReg`. -/
theorem frameOfRegisters : Obligations.FrameOfRegisters := fun _ s _ r h hr =>
  exec_frame (State.reg · r) h (fun _ => rfl) (completed_reg hr s)

/-- Settles O19: a halt writes no byte, and an effect loads bytes inside the stored range only. -/
theorem frameOfMemory : Obligations.FrameOfMemory := fun _ s _ h =>
  ⟨fun a ha => exec_frame (State.readByte · a) h (fun _ => rfl) (completed_readByte ha),
    fun hlen => exec_frame State.mem h (fun _ => rfl) (completed_mem hlen s)⟩

/-- Settles O20: neither a halt nor any other effect writes `I`. -/
theorem frameOfIndexRegister : Obligations.FrameOfIndexRegister := fun _ s _ h hldI haddI hldF =>
  exec_frame State.i h (fun _ => rfl) (completed_i hldI haddI hldF s)

/-- Settles O21: neither a halt nor any other effect touches the stack, and a push sets one entry. -/
theorem frameOfStack : Obligations.FrameOfStack := fun i s _ h =>
  ⟨fun hcall => exec_frame State.stack h (fun _ => rfl) (completed_stack hcall s),
    fun hcall hret => exec_frame State.sp h (fun _ => rfl) (completed_sp hcall hret s),
    fun k hk => exec_frame (State.stackEntry · k) h (fun _ => rfl) (completed_stackEntry i hk)⟩

/-- Settles O22: neither a halt nor any other effect writes a timer, and none the record. -/
theorem frameOfTimers : Obligations.FrameOfTimers := fun i s _ h =>
  ⟨fun hi => exec_frame State.dt h (fun _ => rfl) (completed_dt hi s),
    fun hi => exec_frame State.st h (fun _ => rfl) (completed_st hi s),
    exec_frame State.io h (fun _ => rfl) (completed_io i s)⟩

/-- Settles O23: neither a halt nor any other effect writes the framebuffer. -/
theorem frameOfFramebuffer : Obligations.FrameOfFramebuffer := fun _ s _ h hcls hdrw =>
  exec_frame State.fb h (fun _ => rfl) (completed_fb hcls hdrw s)

/-- Settles O24: a key wait with a key down writes a register, not `PC`. -/
theorem frameOfProgramCounter : Obligations.FrameOfProgramCounter := by
  intro i s t h hret hjp hcall hjpV0 hseImm hsneImm hseReg hsneReg hskp hsknp hkey
  refine exec_frame State.pc h (fun _ => rfl) ?_
  cases i with
  | ret => exact (hret rfl).elim
  | jp n => exact (hjp n rfl).elim
  | call n => exact (hcall n rfl).elim
  | jpV0 n => exact (hjpV0 n rfl).elim
  | seImm x n => exact (hseImm x n rfl).elim
  | sneImm x n => exact (hsneImm x n rfl).elim
  | seReg x y => exact (hseReg x y rfl).elim
  | sneReg x y => exact (hsneReg x y rfl).elim
  | skp x => exact (hskp x rfl).elim
  | sknp x => exact (hsknp x rfl).elim
  | ldVxK x =>
    obtain ⟨hkeys, -⟩ | ⟨-, b, hb⟩ := completed_ldVxK_cases x s
    · exact (hkey.elim (fun hi => hi x rfl) fun hk => hk hkeys).elim
    · rw [hb]; rfl
  | loadRegs x => rw [completed_loadRegs]
  | _ => rfl

/-! ### Flags (R22) -/

/-- A flag-writing instruction that completes leaves a flag value in `VF`, whatever its destination. -/
theorem completed_flag {i : Instr} (h : writesFlag i = true) (s : State) :
    ∃ c, (completed i s).reg regF = flagByte c := by
  cases i with
  | addReg | subReg | shr | subnReg | shl | drw => exact ⟨_, State.reg_setReg_same _ regF _⟩
  | _ => cases h

/-- Settles O18: the flag is the last register such an instruction writes. -/
theorem flagInstructionsWriteZeroOrOne : Obligations.FlagInstructionsWriteZeroOrOne := by
  intro i s hflag hnone
  obtain ⟨c, hc⟩ := completed_flag hflag s
  exact ⟨_, exec_completes hnone, hc ▸ flagByte_zero_or_one c⟩

/-! ### Inputs (R96) -/

/-- No cause to halt depends on the model's own record. -/
theorem haltCause_setIo (i : Instr) (s : State) (r : Io) :
    haltCause i (s.setIo r) = haltCause i s := by
  cases i <;> rfl

theorem State.loadRegsFrom_setIo (rs : List Reg) (s : State) (base : Nat) (r : Io) :
    (s.setIo r).loadRegsFrom base rs = (s.loadRegsFrom base rs).setIo r := by
  induction rs generalizing s with
  | nil => rfl
  | cons k rs ih => exact ih (s.setReg k (s.readByte (base + k.val)))

theorem State.keyDown_setIo {s : State} {r : Io} (h : r.keys = s.io.keys) :
    (s.setIo r).keyDown = s.keyDown :=
  funext fun k => congrArg (BitVec.getLsbD · k.val) h

theorem State.lowestKey_setIo {s : State} {r : Io} (h : r.keys = s.io.keys) :
    (s.setIo r).lowestKey = s.lowestKey := by
  rw [State.lowestKey, State.keyDown_setIo h]; rfl

/-- The instruction does not read the keypad sample (R160, R161, R164). -/
def ignoresKeys (i : Instr) : Prop :=
  (∀ x, i ≠ .skp x) ∧ (∀ x, i ≠ .sknp x) ∧ ∀ x, i ≠ .ldVxK x

/-- A record with the same inputs, as far as the instruction reads them, gives the same effect. -/
theorem completed_setIo {i : Instr} {s : State} {r : Io}
    (hkeys : ignoresKeys i ∨ r.keys = s.io.keys)
    (hrnd : (∀ x nn, i ≠ .rnd x nn) ∨ r.rnd = s.io.rnd) :
    completed i (s.setIo r) = (completed i s).setIo r := by
  cases i with
  | skp x =>
    have hk := hkeys.resolve_left fun ⟨hskp, _, _⟩ => hskp x rfl
    rw [completed, State.keyDown_setIo hk]; rfl
  | sknp x =>
    have hk := hkeys.resolve_left fun ⟨_, hsknp, _⟩ => hsknp x rfl
    rw [completed, State.keyDown_setIo hk]; rfl
  | ldVxK x =>
    have hk := hkeys.resolve_left fun ⟨_, _, hldVxK⟩ => hldVxK x rfl
    rw [completed, completed, State.lowestKey_setIo hk]
    cases s.lowestKey with
    | none => rfl
    | some k => rfl
  | rnd x nn =>
    have hr := hrnd.resolve_left fun h => h x nn rfl
    rw [completed, State.setIo_io, hr]; rfl
  | loadRegs x => exact State.loadRegsFrom_setIo _ s _ r
  | _ => rfl

/-- The same of the whole instruction. -/
theorem exec_setIo {i : Instr} {s t : State} {r : Io} (h : exec i s = .next t)
    (hkeys : ignoresKeys i ∨ r.keys = s.io.keys)
    (hrnd : (∀ x nn, i ≠ .rnd x nn) ∨ r.rnd = s.io.rnd) :
    exec i (s.setIo r) = .next (t.setIo r) := by
  obtain ⟨c, hc, rfl⟩ | ⟨hnone, rfl⟩ := exec_cases h
  · exact exec_halts ((haltCause_setIo i s r).trans hc)
  · rw [exec_completes ((haltCause_setIo i s r).trans hnone), completed_setIo hkeys hrnd]

/-- Settles O25: the record with one input replaced has the other, and no instruction writes it. -/
theorem inputsMatterOnlyWhereRead : Obligations.InputsMatterOnlyWhereRead := by
  intro i s t keys rnd h
  obtain ⟨-, -, hio⟩ := frameOfTimers i s t h
  rw [hio]
  exact ⟨fun hskp hsknp hldVxK => exec_setIo h (.inl ⟨hskp, hsknp, hldVxK⟩) (.inr rfl),
    fun hrnd => exec_setIo h (.inr rfl) (.inl hrnd)⟩

end Sys2Proof.Machine
end

section
/-! PROOFS of the statements about the cycle and the step (spec/40_cycle.md, spec/00_scope.md R5), and
that every step keeps the invariant. -/

namespace Sys2Proof.Machine

/-! ### The instruction word (R52) -/

/-- The byte at the lower address is the high byte. -/
theorem wordOfBytes_toNat (hi lo : Byte) :
    (wordOfBytes hi lo).toNat = 256 * hi.toNat + lo.toNat := by
  rw [wordOfBytes, BitVec.toNat_append, ← Nat.shiftLeft_add_eq_or_of_lt lo.isLt, Nat.shiftLeft_eq]
  omega

/-- Settles O11: the word is the two bytes read, the first one high. -/
theorem fetchIsBigEndian : Obligations.FetchIsBigEndian := fun s a =>
  wordOfBytes_toNat (s.readByte a) (s.readByte (a + 1))

/-! ### Steps and cycles -/

/-- Settles O7: as `step_pending` says. -/
theorem stepTakesOldestEvent : Obligations.StepTakesOldestEvent := fun _ _ _ h => step_pending h

/-- A `CYCLE` event whose word is an instruction executes it (R90). -/
theorem hostCycle_decoded {s : State} {i : Instr} (hboot : s.io.boot ≠ .loadFailed)
    (hmode : s.mode ≠ .halt) (hpc : s.pc.toNat ≤ 0xFFE)
    (hdecode : decodeWord (s.wordAt s.pc.toNat) = some i) (keys : BitVec 16) (rnd : Byte) :
    hostCycle keys rnd s = exec i (s.setIo (s.io.begun keys rnd)).advance :=
  (hostCycle_runs hboot keys rnd).trans (cycle_decoded hmode hpc hdecode keys rnd)

/-- Settles O6: whichever way the step comes to its cycle, the event before it changed neither memory,
`PC` nor `MODE`, so the cycle decodes the same word. -/
theorem stepRunsDecodedInstruction : Obligations.StepRunsDecodedInstruction := by
  intro s i hboot hmode hpc hdecode
  refine ⟨fun keys rnd rest hpending => ?pending, fun hpending => ?free⟩
  case pending =>
    rw [step_pending hpending]
    exact hostCycle_decoded (s := s.setIo { s.io with pending := rest }) hboot hmode hpc hdecode
      keys rnd
  case free =>
    rw [step_free hpending]
    have hdecoded := hostCycle_decoded (s := (s.ticks (Config.freeTicks s.io.draws)).setIo
      { s.io with draws := s.io.draws + 1 }) hboot hmode hpc hdecode
    exact hdecoded _ _

/-- Settles O9: as `cycle_fetch_past_end` says. -/
theorem fetchPastEndHalts : Obligations.FetchPastEndHalts := fun _ keys rnd hmode hpc =>
  ⟨_, cycle_fetch_past_end hmode hpc keys rnd, rfl, rfl⟩

/-- Settles O10: a cycle in `HALT` is ignored, a load and a tick write neither `MODE` nor what `MODE`
guards. -/
theorem onlyResetLeavesHalt : Obligations.OnlyResetLeavesHalt := by
  intro e s t hhalt hreset h
  cases e with
  | reset => exact (hreset rfl).elim
  | load bytes origin =>
    obtain ⟨-, -, ⟨-, rfl⟩ | ⟨-, rfl⟩⟩ := hostLoad_cases h
    · exact ⟨hhalt, rfl, rfl, rfl, rfl, rfl, rfl, rfl, nofun⟩
    · exact ⟨hhalt, rfl, rfl, rfl, rfl, rfl, rfl, rfl, nofun⟩
  | cycle keys rnd =>
    obtain ⟨-, hcycle⟩ := hostCycle_cases h
    rw [cycle_halted hhalt] at hcycle
    cases hcycle
    exact ⟨hhalt, rfl, rfl, rfl, rfl, rfl, rfl, rfl, fun _ _ _ => ⟨rfl, rfl⟩⟩
  | tick =>
    cases h
    exact ⟨hhalt, rfl, rfl, rfl, rfl, rfl, rfl, rfl, nofun⟩

/-! ### A store and the next fetch (R53) -/

/-- A transfer whose range lies inside memory has no cause to halt. -/
theorem outOfMemory_inside {s : State} {k : Nat} (h : s.i.toNat + k ≤ 0xFFF) :
    outOfMemory s (k + 1) = none :=
  outOfMemory_eq_none.2 (.inr (by omega))

/-- `Fx55` puts each register of its range at its address (R144). -/
theorem completed_storeRegs_readByte {x r : Reg} (h : r ≤ x) (s : State) :
    (completed (.storeRegs x) s).readByte (s.i.toNat + r.val) = s.reg r := by
  have hlen : r.val < ((regsUpTo x).map s.reg).length := by simp; omega
  have hread := Memory.read_load_inside (m := s.mem) (a := s.effective 0) hlen
  rw [← regsUpTo_map_getD s.reg h, List.getD_eq_getElem _ _ hlen]
  exact hread

/-- Settles O12: the two bytes stored are the word at `PC`, and the cycle decodes it. -/
theorem storeIsSeenByNextFetch : Obligations.StoreIsSeenByNextFetch := by
  intro x s hmode hx hi hrange
  have hnone : haltCause (.storeRegs x) s = none := outOfMemory_inside hrange
  have hpc : s.pc.toNat + x.val ≤ 0xFFF := hi ▸ hrange
  let t := completed (.storeRegs x) s
  have hhigh : t.readByte t.pc.toNat = s.reg 0 := by
    have := completed_storeRegs_readByte (x := x) (r := 0) (Fin.zero_le x) s
    rwa [hi] at this
  have hlow : t.readByte (t.pc.toNat + 1) = s.reg 1 := by
    have := completed_storeRegs_readByte (x := x) (r := 1) (Fin.le_def.2 hx) s
    rwa [hi] at this
  have hword : t.wordAt t.pc.toNat = wordOfBytes (s.reg 0) (s.reg 1) := by
    rw [State.wordAt, hhigh, hlow]
  have hvalue : (t.wordAt t.pc.toNat).toNat = 256 * (s.reg 0).toNat + (s.reg 1).toNat := by
    rw [hword, wordOfBytes_toNat]
  refine ⟨t, exec_completes hnone, rfl, hvalue, fun i keys rnd hdecode => ?_⟩
  rw [← hvalue, BitVec.ofNat_toNat, BitVec.setWidth_eq] at hdecode
  exact cycle_decoded (s := t) hmode (show s.pc.toNat ≤ 0xFFE by omega) hdecode keys rnd

/-! ### The invariant, kept by the operations a step is made of -/

section
variable {s : State} (hs : s.Inv)
include hs

theorem State.Inv.mode_waitKey_boot (h : s.mode = .waitKey) : s.io.boot = .cycling :=
  (hs.waitingAtKeyWait h).1

theorem State.Inv.cause_none (h : s.mode ≠ .halt) : s.cause = .none :=
  not_not.1 (mt hs.causeOfHalt.2 h)

/-- The record may be replaced, where a waiting core stays past the boot sequence. -/
theorem State.Inv.setIo {r : Io} (h : s.mode = .waitKey → r.boot = .cycling) : (s.setIo r).Inv where
  memCanonical := hs.memCanonical
  pcInRange := hs.pcInRange
  stackInRange := hs.stackInRange
  causeOfHalt := hs.causeOfHalt
  causeNotRom := hs.causeNotRom
  causeNotOpcode := hs.causeNotOpcode
  waitingAtKeyWait hwait := ⟨h hwait, (hs.waitingAtKeyWait hwait).2⟩

theorem State.Inv.setTimers (dt st : Byte) : ((s.setDT dt).setST st).Inv where
  memCanonical := hs.memCanonical
  pcInRange := hs.pcInRange
  stackInRange := hs.stackInRange
  causeOfHalt := hs.causeOfHalt
  causeNotRom := hs.causeNotRom
  causeNotOpcode := hs.causeNotOpcode
  waitingAtKeyWait := hs.waitingAtKeyWait

/-- A load of bytes inside memory, where the core does not wait at an instruction. -/
theorem State.Inv.load {bytes : List Byte} {origin : Nat} (h : s.mode ≠ .waitKey)
    (hfits : origin + bytes.length ≤ 0x1000) : (s.setMem (s.mem.load origin bytes)).Inv where
  memCanonical := Memory.wf_load hs.memCanonical hfits
  pcInRange := hs.pcInRange
  stackInRange := hs.stackInRange
  causeOfHalt := hs.causeOfHalt
  causeNotRom := hs.causeNotRom
  causeNotOpcode := hs.causeNotOpcode
  waitingAtKeyWait hwait := (h hwait).elim

/-- A halt with one of the causes that halt (R171). -/
theorem State.Inv.halted {c : Cause}
    (hc : c = .stackOverflow ∨ c = .stackUnderflow ∨ c = .memoryOutOfBounds) :
    (s.setStatus .halt c).Inv where
  memCanonical := hs.memCanonical
  pcInRange := hs.pcInRange
  stackInRange := hs.stackInRange
  causeOfHalt := by obtain rfl | rfl | rfl := hc <;> simp
  causeNotRom := by obtain rfl | rfl | rfl := hc <;> simp
  causeNotOpcode := by obtain rfl | rfl | rfl := hc <;> simp
  waitingAtKeyWait := nofun

/-- `PC` advanced past an instruction word, with `MODE = RUN` (R92). -/
theorem State.Inv.advance (hmode : s.mode ≠ .halt) (hpc : s.pc.toNat ≤ 0xFFE) : s.advance.Inv where
  memCanonical := hs.memCanonical
  pcInRange := by
    have := pc_add_two_toNat hpc
    simp only [State.advance_eq, State.setStatus_pc, State.setPC_pc]
    omega
  stackInRange := hs.stackInRange
  causeOfHalt := by simp [hs.cause_none hmode]
  causeNotRom := hs.causeNotRom
  causeNotOpcode := hs.causeNotOpcode
  waitingAtKeyWait := nofun

end

/-! ### The invariant, kept by an instruction -/

/-- Effects keep memory canonical: a range stored lies inside memory (R58). -/
theorem completed_mem_wf {i : Instr} {s : State} (hmem : s.mem.wf = true)
    (hnone : haltCause i s = none) : (completed i s).mem.wf = true := by
  cases i with
  | ldB x =>
    have hin := outOfMemory_eq_none.1 hnone
    refine Memory.wf_load hmem ?_
    simp only [State.effective, decimalDigits_length, Config.memSize]
    omega
  | storeRegs x =>
    have hin := outOfMemory_eq_none.1 hnone
    refine Memory.wf_load hmem ?_
    simp only [State.effective, List.length_map, regsUpTo_length, Config.memSize]
    omega
  | _ => exact (congrArg Memory.wf (completed_mem rfl s)).trans hmem

/-- Effects keep return addresses in range: a call pushes the advanced `PC` (R24). -/
theorem completed_stack_le {s : State} (i : Instr) (hpc : s.pc.toNat ≤ 0x1000)
    (hstack : ∀ k, (s.stackEntry k).toNat ≤ 0x1000) (k : Fin 16) :
    ((completed i s).stackEntry k).toNat ≤ 0x1000 := by
  by_cases hcall : ∃ nnn, i = .call nnn
  · obtain ⟨nnn, rfl⟩ := hcall
    have hentry : (completed (.call nnn) s).stackEntry k = _ := State.stackEntry_push s s.pc k
    rw [hentry]
    split
    · exact hpc
    · exact hstack k
  · rw [State.stackEntry, completed_stack (fun nnn h => hcall ⟨nnn, h⟩)]
    exact hstack k

/-- The entry a return pops is a stack entry. -/
theorem State.top_eq {s : State} (h : 0 < s.sp.val) :
    s.top = s.stackEntry ⟨s.sp.val - 1, by omega⟩ := by
  have : s.sp.val - 1 < 16 := by omega
  simp [State.top, State.stackEntry, Vector.getD, this]

theorem State.skipIf_pc_le {s : State} (h : s.pc.toNat ≤ 0x1000) (c : Bool) :
    (s.skipIf c).pc.toNat ≤ 0x1002 := by
  rw [State.skipIf_eq, State.setPC_pc, apply_ite BitVec.toNat, BitVec.toNat_add]
  simp
  split <;> omega

/-- Effects keep `PC` in range: every target is an address, a popped entry, a skip from the advanced
`PC`, or the key wait's own address (R24). -/
theorem completed_pc_le {i : Instr} {s : State} (hlo : 2 ≤ s.pc.toNat) (hpc : s.pc.toNat ≤ 0x1000)
    (hstack : ∀ k, (s.stackEntry k).toNat ≤ 0x1000) (hnone : haltCause i s = none) :
    (completed i s).pc.toNat ≤ 0x1002 := by
  have hstay : s.pc.toNat ≤ 0x1002 := by omega
  cases i with
  | seImm | sneImm | seReg | sneReg | skp | sknp => exact State.skipIf_pc_le hpc _
  | jp nnn | call nnn =>
    have htarget := addressOf_toNat nnn
    have := nnn.isLt
    simp only [completed, State.setPC_pc]
    omega
  | ret =>
    have hsp : 0 < s.sp.val := by
      simp only [haltCause] at hnone
      split at hnone
      · cases hnone
      · omega
    have := hstack ⟨s.sp.val - 1, by omega⟩
    simp only [completed, State.setPC_pc, State.top_eq hsp]
    omega
  | jpV0 nnn =>
    have hin : s.indexedTarget nnn ≤ 0xFFF := by
      simp only [haltCause] at hnone
      split at hnone
      · cases hnone
      · simp only [State.indexedTarget]; omega
    have := State.toNat_ofNat_indexedTarget hin
    simp only [completed, State.setPC_pc]
    omega
  | ldVxK x =>
    obtain ⟨-, h⟩ | ⟨-, b, h⟩ := completed_ldVxK_cases x s
    · rw [h, State.holdForKey_eq, State.setStatus_pc, State.setPC_pc]
      bv_omega
    · rw [h]; exact hstay
  | loadRegs x => rw [completed_loadRegs]; exact hstay
  | _ => exact hstay

/-- An instruction keeps the invariant, run where the cycle runs it: at the "execute ins" line of R90,
with `PC` past the word that decoded to it. -/
theorem State.Inv.exec {i : Instr} {s t : State} (hs : s.Inv) (hrun : s.mode = .run)
    (hboot : s.io.boot = .cycling) (hlo : 2 ≤ s.pc.toNat) (hpc : s.pc.toNat ≤ 0x1000)
    (hdecode : decodeWord (s.wordAt (s.pc.toNat - 2)) = some i) (h : exec i s = .next t) :
    t.Inv := by
  obtain ⟨c, hc, rfl⟩ | ⟨hnone, rfl⟩ := exec_cases h
  · exact hs.halted (haltCause_cases hc)
  · have hcause : (completed i s).cause = .none :=
      (completed_cause i s).trans (hs.cause_none (by simp [hrun]))
    refine
      { memCanonical := completed_mem_wf hs.memCanonical hnone
        pcInRange := completed_pc_le hlo hpc hs.stackInRange hnone
        stackInRange := completed_stack_le i hpc hs.stackInRange
        causeOfHalt := by simp [hcause, completed_mode_ne_halt i hrun]
        causeNotRom := by simp [hcause]
        causeNotOpcode := by simp [hcause]
        waitingAtKeyWait := fun hwait => ⟨(congrArg Io.boot (completed_io i s)).trans hboot, ?_⟩ }
    by_cases hkey : (∀ x, i ≠ .ldVxK x) ∨ s.io.keys ≠ 0
    · rw [completed_mode hkey, hrun] at hwait
      cases hwait
    · obtain ⟨⟨x, rfl⟩, hkeys⟩ : (∃ x, i = .ldVxK x) ∧ s.io.keys = 0 := by simpa using hkey
      have hown : (completed (.ldVxK x) s).pc.toNat = s.pc.toNat - 2 := by
        rw [completed_ldVxK_waits hkeys, State.holdForKey_eq, State.setStatus_pc, State.setPC_pc]
        bv_omega
      rw [hown, State.wordAt_of_mem (completed_mem rfl s)]
      exact ⟨by omega, x, hdecode⟩

/-- A cycle keeps the invariant (R90). -/
theorem State.Inv.cycle {keys : BitVec 16} {rnd : Byte} {s t : State} (hs : s.Inv)
    (h : cycle keys rnd s = .next t) : t.Inv := by
  have hbegun : (s.setIo (s.io.begun keys rnd)).Inv := hs.setIo fun _ => rfl
  obtain ⟨-, rfl⟩ | ⟨-, -, rfl⟩ | ⟨hmode, hpc, -, rfl⟩ | ⟨hmode, hpc, i, hdecode, hexec⟩ :=
    cycle_cases h
  · exact hbegun
  · exact hbegun.halted (.inr (.inr rfl))
  · exact (hbegun.advance hmode hpc).setIo nofun
  · have hadvanced : (s.setIo (s.io.begun keys rnd)).advance.pc.toNat = s.pc.toNat + 2 :=
      pc_add_two_toNat hpc
    refine (hbegun.advance hmode hpc).exec rfl rfl (by omega) (by omega) ?_ hexec
    rw [hadvanced, Nat.add_sub_cancel]
    exact hdecode

/-- Settles O13: at reset memory lists nothing, `PC` is 0x200 and every stack entry is zero. -/
theorem resetMeetsInvariant : Obligations.ResetMeetsInvariant where
  memCanonical := Memory.wf_reset
  pcInRange := by decide
  stackInRange := by decide
  causeOfHalt := by decide
  causeNotRom := by decide
  causeNotOpcode := by decide
  waitingAtKeyWait := nofun

/-- An event keeps the invariant (R5). -/
theorem State.Inv.event {e : Event} {s t : State} (hs : s.Inv) (h : event e s = .next t) :
    t.Inv := by
  cases e with
  | reset => cases h; exact State.Inv.setIo resetMeetsInvariant nofun
  | load bytes origin =>
    obtain ⟨hboot, -, ⟨-, rfl⟩ | ⟨hfits, rfl⟩⟩ := hostLoad_cases h
    all_goals
      have hnowait : s.mode ≠ .waitKey := fun hw => by simp [hs.mode_waitKey_boot hw] at hboot
    · exact hs.setIo fun hw => (hnowait hw).elim
    · exact (hs.load hnowait hfits).setIo fun hw => (hnowait hw).elim
  | cycle keys rnd => exact hs.cycle (hostCycle_cases h).2
  | tick => cases h; exact (hs.setTimers _ _).setIo fun hw => hs.mode_waitKey_boot hw

/-- Settles O14: a step is an event, or ticks and a cycle, and each keeps the invariant. -/
theorem stepKeepsInvariant : Obligations.StepKeepsInvariant := by
  intro s t hs h
  cases hpending : s.io.pending with
  | cons e rest =>
    rw [step_pending hpending] at h
    exact (hs.setIo (r := { s.io with pending := rest }) hs.mode_waitKey_boot).event h
  | nil =>
    rw [step_free hpending] at h
    obtain ⟨-, hcycle⟩ := hostCycle_cases h
    have hticked : (s.ticks (Config.freeTicks s.io.draws)).Inv := hs.setTimers _ _
    exact (hticked.setIo (r := { s.io with draws := s.io.draws + 1 })
      hs.mode_waitKey_boot).cycle hcycle

end Sys2Proof.Machine
end

section
/-! PROOFS of the statements about the events (spec/60_exceptions.md R185, spec/20_memory.md R60,
spec/70_reset_and_hazards.md R200) and about the end of a run (R206). -/

namespace Sys2Proof.Machine

/-! ### Ticks (R185) -/

theorem timerAfter_zero (b : Byte) : timerAfter 0 b = b :=
  BitVec.eq_of_toNat_eq (timerAfter_toNat 0 b)

theorem timerAfter_succ (n : Nat) (b : Byte) : timerAfter (n + 1) b = timerAfter n (timerDown b) := by
  apply BitVec.eq_of_toNat_eq
  rw [timerAfter_toNat, timerAfter_toNat, timerDown_toNat]
  omega

theorem State.ticks_zero (s : State) : s.ticks 0 = s := by
  rw [State.ticks, timerAfter_zero, timerAfter_zero]; rfl

/-- A tick and then `n` of them at once are `n + 1` of them at once. -/
theorem State.ticks_succ (s : State) (n : Nat) : s.ticks (n + 1) = s.tick.ticks n := by
  rw [State.ticks, timerAfter_succ, timerAfter_succ]; rfl

theorem State.ticks_eq_iterate (n : Nat) (s : State) : s.ticks n = Nat.iterate State.tick n s := by
  induction n generalizing s with
  | zero => exact s.ticks_zero
  | succ n ih => rw [State.ticks_succ, ih, Function.iterate_succ_apply]

/-- Settles O55: as `timerDown_toNat` says of each timer. -/
theorem tickCountsBothTimersDown : Obligations.TickCountsBothTimersDown := fun s =>
  ⟨s.tick.setReport none, rfl, timerDown_toNat s.dt, timerDown_toNat s.st, rfl⟩

/-- Settles O56: by induction on the number of ticks, and `timerAfter_toNat` of each timer. -/
theorem ticksComposeAndStopAtZero : Obligations.TicksComposeAndStopAtZero := by
  intro n s
  have hst : (s.ticks n).st.toNat = s.st.toNat - n := timerAfter_toNat n s.st
  refine ⟨s.ticks_eq_iterate n, timerAfter_toNat n s.dt, hst, fun hle => ?_⟩
  have hzero : (s.ticks n).st = 0 := BitVec.eq_of_toNat_eq (hst.trans (Nat.sub_eq_zero_of_le hle))
  simp only [State.tone, hzero, bne_self_eq_false]

/-! ### Loading an image (R60) -/

/-- A load puts each byte of the list at its address. -/
theorem Memory.some_read_load {bytes : List Byte} {k : Nat} (h : k < bytes.length) (m : Memory)
    (a : Nat) : some ((m.load a bytes).read (a + k)) = bytes[k]? := by
  rw [Memory.read_load_inside h, List.getElem?_eq_getElem h]

/-- Settles O57: the admitted load is a load of bytes into memory, and the launch state is the same of
the reset state, where memory from 0x200 on is zero. -/
theorem loadCopiesImage : Obligations.LoadCopiesImage := by
  intro bytes s hboot hlen
  refine ⟨_, hostLoad_fits hboot hlen, rfl, fun k hk => Memory.some_read_load hk s.mem 0x200,
    fun a ha => Memory.read_load_outside ha, rfl,
    _, hostLoad_fits rfl hlen, rfl, fun k hk => Memory.some_read_load hk State.reset.mem 0x200,
    fun a ha => Memory.read_load_outside (.inl ha), fun a ha _ => ?above⟩
  case above =>
    exact (Memory.read_load_outside (.inr ha)).trans (Memory.initial_program (by omega))

/-- Settles O58: one case of `hostLoad` and `hostCycle` each. -/
theorem loadRejectsWhatDoesNotFit : Obligations.LoadRejectsWhatDoesNotFit := fun _ _ _ =>
  ⟨hostLoad_tooLarge, hostCycle_refused, fun h => if_pos h⟩

/-! ### Reset (R200) -/

/-- The font lies at `FONT_BASE` in the reset state (R57). -/
theorem reset_readByte_font {k : Nat} (h : k < 80) :
    some (State.reset.readByte (Config.fontBase.val + k)) = Config.fontData[k]? := by
  have hlen : k < Config.fontData.length := h
  have hread : State.reset.readByte (Config.fontBase.val + k) = _ := Memory.initial_font h
  rw [hread, List.getD_eq_getElem _ _ hlen, List.getElem?_eq_getElem hlen]

/-- Settles O59: a `RESET` leaves the reset state but for the model's own record. -/
theorem resetClearsEverything : Obligations.ResetClearsEverything := by
  intro s
  refine ⟨resetEvent s, rfl, ?registers, rfl, rfl, ?entries, rfl, rfl, rfl,
    Framebuffer.pixel_clear, rfl, rfl, rfl, rfl, fun k hk => reset_readByte_font hk,
    fun a _ ha => Memory.initial_outside ha⟩
  case registers => exact fun r => Vector.getElem_replicate r.isLt
  case entries => exact fun k => Vector.getElem_replicate k.isLt

/-! ### A self-jump (R206) -/

/-- The free step from a self-jump ends at the same jump, and changes the timers, `MODE` and the
record only. -/
theorem State.selfJump_step {s : State} (hjump : s.selfJump) (hboot : s.io.boot ≠ .loadFailed)
    (hpending : s.io.pending = []) :
    ∃ t, step s = .next t ∧ s.sameButTimers t ∧ t.selfJump ∧ t.mode = .run ∧
      t.io.boot ≠ .loadFailed ∧ t.io.pending = [] := by
  obtain ⟨hmode, hpc, nnn, hdecode, hself⟩ := hjump
  have htarget : addressOf nnn = s.pc := BitVec.eq_of_toNat_eq ((addressOf_toNat nnn).trans hself)
  obtain ⟨-, hfree⟩ := stepRunsDecodedInstruction s (.jp nnn) hboot hmode hpc hdecode
  have hstep := hfree hpending
  rw [exec_completes rfl, completed, htarget] at hstep
  exact ⟨_, hstep, ⟨rfl, rfl, rfl, rfl, rfl, rfl, rfl, rfl⟩,
    ⟨Mode.noConfusion, hpc, nnn, hdecode, hself⟩, rfl, Boot.noConfusion, hpending⟩

theorem State.sameButTimers_trans {s t u : State} (hst : s.sameButTimers t)
    (htu : t.sameButTimers u) : s.sameButTimers u := by
  obtain ⟨hv, hi, hpc, hstack, hsp, hmem, hfb, hcause⟩ := hst
  obtain ⟨hv', hi', hpc', hstack', hsp', hmem', hfb', hcause'⟩ := htu
  exact ⟨hv'.trans hv, hi'.trans hi, hpc'.trans hpc, hstack'.trans hstack, hsp'.trans hsp,
    hmem'.trans hmem, hfb'.trans hfb, hcause'.trans hcause⟩

/-- Settles O60: by induction on the number of steps; the state after a step meets the hypotheses
again. -/
theorem selfJumpIsFixedPoint : Obligations.SelfJumpIsFixedPoint := by
  intro k
  induction k with
  | zero =>
    intro s hjump _ _
    exact ⟨s, rfl, ⟨rfl, rfl, rfl, rfl, rfl, rfl, rfl, rfl⟩, hjump, nofun⟩
  | succ k ih =>
    intro s hjump hboot hpending
    obtain ⟨t, hstep, hsame, hjump', hrun, hboot', hpending'⟩ :=
      State.selfJump_step hjump hboot hpending
    obtain ⟨u, hrest, hsame', hjump'', hrun'⟩ := ih t hjump' hboot' hpending'
    refine ⟨u, (run_succ hstep k).trans hrest, State.sameButTimers_trans hsame hsame', hjump'',
      fun _ => ?_⟩
    cases k with
    | zero => cases hrest; exact hrun
    | succ k => exact hrun' (Nat.succ_pos k)

end Sys2Proof.Machine
end

section
/-! PROOFS of the rest of the control flow statements (spec/41_control_flow.md): the return. -/

namespace Sys2Proof.Machine

open Sys2Proof.Laws

/-- A return has no cause to halt where an entry is live (R100). -/
theorem haltCause_ret {s : State} (h : 0 < s.sp.val) : haltCause .ret s = none :=
  if_neg (by omega)

theorem State.drop_sp_val (s : State) : s.drop.sp.val = s.sp.val - 1 :=
  Nat.mod_eq_of_lt (show s.sp.val - 1 < 17 by omega)

/-- Settles O28: the pop reads the top entry and leaves the stack as it was. -/
theorem returnPopsProgramCounter : Obligations.ReturnPopsProgramCounter := by
  intro s
  refine ⟨RoundTrip.ret rfl, fun h => ⟨_, exec_completes (haltCause_ret h), ?pointer, ?popped, rfl⟩⟩
  case pointer => exact s.drop_sp_val
  case popped => exact State.top_eq h

/-- Settles O30: the return pops the `PC` the call pushed, and takes `SP` back down by one. -/
theorem callThenReturnComesBack : Obligations.CallThenReturnComesBack := by
  intro nnn s hroom
  let t := completed (.call nnn) s
  have hcall : haltCause (.call nnn) s = none := if_neg (by omega)
  have hsp : t.sp.val = s.sp.val + 1 := State.push_sp_val hroom s.pc
  have hlive : 0 < t.sp.val := by omega
  have hpc : (completed .ret t).pc = s.pc := by
    have hpushed := State.stackEntry_push s s.pc ⟨s.sp.val, hroom⟩
    rw [if_pos rfl] at hpushed
    refine (State.top_eq hlive).trans (Eq.trans ?_ hpushed)
    exact congrArg t.stackEntry (Fin.ext (by simp only [hsp, Nat.add_sub_cancel]))
  have hback : (completed .ret t).sp = s.sp :=
    Fin.ext (t.drop_sp_val.trans (by rw [hsp, Nat.add_sub_cancel]))
  refine ⟨t, completed .ret t, exec_completes hcall, exec_completes (haltCause_ret hlive),
    State.ext_fields rfl rfl hpc rfl hback rfl rfl rfl rfl rfl rfl rfl, fun k hk => ?_⟩
  exact (State.stackEntry_push s s.pc k).trans (if_neg hk)

end Sys2Proof.Machine
end

section
/-! PROOFS of the rest of the arithmetic statements (spec/42_arithmetic_logic.md): copy and logic, the
forms with a flag, and the random byte. -/

namespace Sys2Proof.Machine

open Sys2Proof.Laws

/-! ### A result and then the flag (R121) -/

theorem State.reg_setResultAndFlag_result {x : Reg} (hx : x ≠ regF) (s : State) (b : Byte)
    (c : Bool) : (s.setResultAndFlag x b c).reg x = b :=
  (State.reg_setReg_other _ hx _).trans (State.reg_setReg_same s x b)

theorem State.reg_setResultAndFlag_flag (s : State) (x : Reg) (b : Byte) (c : Bool) :
    (s.setResultAndFlag x b c).reg regF = flagByte c :=
  State.reg_setReg_same _ regF _

theorem State.reg_setResultAndFlag_other {x r : Reg} (hx : r ≠ x) (hf : r ≠ regF) (s : State)
    (b : Byte) (c : Bool) : (s.setResultAndFlag x b c).reg r = s.reg r :=
  (State.reg_setReg_other _ hf _).trans (State.reg_setReg_other s hx b)

theorem flagByte_carryOut (a b : Byte) :
    flagByte (carryOut a b) = if 255 < a.toNat + b.toNat then 1 else 0 := by
  simp only [flagByte, carryOut, decide_eq_true_eq, gt_iff_lt]

theorem flagByte_noBorrow (a b : Byte) :
    flagByte (noBorrow a b) = if b.toNat ≤ a.toNat then 1 else 0 := by
  simp only [flagByte, noBorrow, decide_eq_true_eq]

/-- The difference of two bytes is the difference modulo 256. -/
theorem byte_sub_toNat (a b : Byte) : (a - b).toNat = (a.toNat + 256 - b.toNat) % 256 := by
  have := b.isLt
  rw [BitVec.toNat_sub]
  omega

/-- An instruction that writes one register and nothing else. -/
theorem exec_writes_one {i : Instr} {s : State} {x : Reg} {b : Byte} (hnone : haltCause i s = none)
    (h : completed i s = s.setReg x b) :
    ∃ t, exec i s = .next t ∧ t = { s with v := t.v } ∧ t.reg x = b ∧
      ∀ r, r ≠ x → t.reg r = s.reg r :=
  ⟨s.setReg x b, h ▸ exec_completes hnone, rfl, State.reg_setReg_same s x b,
    fun _ hr => State.reg_setReg_other s hr b⟩

/-- Settles O36: each form writes one register; the logic operations on bytes are bitwise. -/
theorem copyAndLogicWriteOneRegister : Obligations.CopyAndLogicWriteOneRegister := by
  intro x y s
  refine ⟨exec_writes_one rfl rfl, ?or, ?and, ?xor⟩
  case or =>
    obtain ⟨t, ht, hframe, hx, hothers⟩ := exec_writes_one (i := .orReg x y) (s := s) rfl rfl
    exact ⟨t, ht, hframe, fun k _ => by rw [hx, BitVec.getLsbD_or], hothers⟩
  case and =>
    obtain ⟨t, ht, hframe, hx, hothers⟩ := exec_writes_one (i := .andReg x y) (s := s) rfl rfl
    exact ⟨t, ht, hframe, fun k _ => by rw [hx, BitVec.getLsbD_and], hothers⟩
  case xor =>
    obtain ⟨t, ht, hframe, hx, hothers⟩ := exec_writes_one (i := .xorReg x y) (s := s) rfl rfl
    exact ⟨t, ht, hframe, fun k _ => by rw [hx, BitVec.getLsbD_xor], hothers⟩

/-- Settles O40: the one register written holds the AND of the byte and `nn`. -/
theorem randomByteIsMasked : Obligations.RandomByteIsMasked := by
  intro x nn s
  obtain ⟨t, ht, hframe, hx, hothers⟩ := exec_writes_one (i := .rnd x nn) (s := s) rfl rfl
  exact ⟨RoundTrip.rnd x nn rfl, t, ht, hframe, fun k _ => by rw [hx, BitVec.getLsbD_and], hothers⟩

/-- An instruction that writes a result and a flag and nothing else. -/
theorem exec_writes_flag {i : Instr} {s : State} {x : Reg} {b : Byte} {c : Bool}
    (hnone : haltCause i s = none) (h : completed i s = s.setResultAndFlag x b c) :
    ∃ t, exec i s = .next t ∧ t = { s with v := t.v } ∧ (x ≠ 15 → t.reg x = b) ∧
      t.reg 15 = flagByte c ∧ ∀ r, r ≠ x → r ≠ 15 → t.reg r = s.reg r :=
  ⟨s.setResultAndFlag x b c, h ▸ exec_completes hnone, rfl,
    fun hx => s.reg_setResultAndFlag_result hx b c, s.reg_setResultAndFlag_flag x b c,
    fun _ hx hf => s.reg_setResultAndFlag_other hx hf b c⟩

/-- Settles O37: the flag written last is the carry. -/
theorem addRegisterSetsCarry : Obligations.AddRegisterSetsCarry := by
  intro x y s
  obtain ⟨t, ht, hframe, hx, hflag, hothers⟩ :=
    exec_writes_flag (i := .addReg x y) (s := s) rfl rfl
  exact ⟨t, ht, hframe, fun hne => by rw [hx hne, BitVec.toNat_add],
    hflag.trans (flagByte_carryOut _ _), hothers⟩

/-- Settles O38: the flag written last is not-borrow, of one order of the operands or the other. -/
theorem subtractSetsNotBorrow : Obligations.SubtractSetsNotBorrow := by
  intro x y s
  constructor
  · obtain ⟨t, ht, hframe, hx, hflag, hothers⟩ :=
      exec_writes_flag (i := .subReg x y) (s := s) rfl rfl
    exact ⟨t, ht, hframe, fun hne => by rw [hx hne, byte_sub_toNat],
      hflag.trans (flagByte_noBorrow _ _), hothers⟩
  · obtain ⟨t, ht, hframe, hx, hflag, hothers⟩ :=
      exec_writes_flag (i := .subnReg x y) (s := s) rfl rfl
    exact ⟨t, ht, hframe, fun hne => by rw [hx hne, byte_sub_toNat],
      hflag.trans (flagByte_noBorrow _ _), hothers⟩

/-- Settles O39: a shift by one is a division or a product by 2, and the flag is the bit it drops. -/
theorem shiftsMoveOneBit : Obligations.ShiftsMoveOneBit := by
  intro x y s
  constructor
  · obtain ⟨t, ht, hframe, hx, hflag, hothers⟩ :=
      exec_writes_flag (i := .shr x y) (s := s) rfl rfl
    exact ⟨t, ht, hframe, fun hne => by rw [hx hne, BitVec.toNat_ushiftRight]; rfl,
      (congrArg BitVec.toNat hflag).trans (flagByte_lowBit_toNat _), hothers⟩
  · obtain ⟨t, ht, hframe, hx, hflag, hothers⟩ :=
      exec_writes_flag (i := .shl x y) (s := s) rfl rfl
    exact ⟨t, ht, hframe, fun hne => by rw [hx hne, BitVec.toNat_shiftLeft, Nat.shiftLeft_eq],
      (congrArg BitVec.toNat hflag).trans (flagByte_highBit_toNat _), hothers⟩

end Sys2Proof.Machine
end

section
/-! PROOFS of the rest of the index register and memory statements (spec/43_index_memory.md): the sum
into `I`, the glyph address and the transfers. -/

namespace Sys2Proof.Machine

/-- Settles O42: the sum of two words is the sum modulo 65536, and a byte keeps its value as a word. -/
theorem addIndexWrapsAtSixteenBits : Obligations.AddIndexWrapsAtSixteenBits := by
  intro x s
  refine ⟨_, exec_completes rfl, ?sum, rfl⟩
  case sum =>
    have hbyte : ((s.reg x).setWidth 16).toNat = (s.reg x).toNat :=
      BitVec.toNat_setWidth_of_le (by decide)
    exact (BitVec.toNat_add _ _).trans (by rw [hbyte])

/-- Settles O43: the glyph's five bytes lie in the font, which reset puts at `FONT_BASE`. -/
theorem glyphAddressPointsAtFont : Obligations.GlyphAddressPointsAtFont := by
  intro x s
  have hbase := Config.fontBase.isLt
  have hi : (completed (.ldF x) s).i.toNat = Config.fontBase.val + 5 * ((s.reg x).toNat % 16) :=
    (glyphAddress_toNat _).trans (by rw [lowNibble_val])
  refine ⟨_, exec_completes rfl, rfl, hi, by omega, fun r hr => ?rows⟩
  case rows =>
    rw [hi, Nat.add_assoc]
    exact reset_readByte_font (by omega)

/-- Settles O44: the three bytes stored are the digits `decimalDigits_spec` is about. -/
theorem decimalStoreWritesDigits : Obligations.DecimalStoreWritesDigits := by
  intro x s hin
  have hdigit : ∀ k < 3, (completed (.ldB x) s).readByte (s.i.toNat + k) =
      (decimalDigits (s.reg x)).getD k 0 := fun k hk =>
    (Memory.read_load_inside (a := s.i.toNat) hk).trans (List.getD_eq_getElem _ _ hk).symm
  refine ⟨_, exec_completes (outOfMemory_inside hin), rfl, ?_⟩
  have hfirst : (completed (.ldB x) s).readByte s.i.toNat = _ := hdigit 0 (by decide)
  rw [hfirst, hdigit 1 (by decide), hdigit 2 (by decide)]
  obtain ⟨hsum, hhundreds, htens, hones⟩ := decimalDigits_spec (s.reg x)
  exact ⟨hsum, hhundreds, htens, hones, fun a ha => completed_readByte ha⟩

/-- Settles O45: `completed_storeRegs_readByte` inside the range, the frame of memory outside it. -/
theorem storeRegistersWritesRange : Obligations.StoreRegistersWritesRange := fun _ s hin =>
  ⟨_, exec_completes (outOfMemory_inside hin), rfl, fun _ hr => completed_storeRegs_readByte hr s,
    fun _ ha => completed_readByte ha⟩

/-- Settles O46: `completed_loadRegs_reg` in the range and above it. -/
theorem loadRegistersReadsRange : Obligations.LoadRegistersReadsRange := fun x s hin =>
  ⟨_, exec_completes (outOfMemory_inside hin), completed_loadRegs x s,
    fun r hr => (completed_loadRegs_reg x r s).trans (if_pos hr),
    fun r hr => (completed_loadRegs_reg x r s).trans (if_neg (not_le.2 hr))⟩

/-- A range that ends above 0xFFF is a cause to halt (R58). -/
theorem outOfMemory_outside {s : State} {len : Nat} (hlen : 0 < len)
    (h : 0xFFF < s.i.toNat + (len - 1)) : outOfMemory s len = some .memoryOutOfBounds :=
  if_pos (by omega)

/-- Settles O47: each form has the cause of its own range. -/
theorem transfersPastEndHalt : Obligations.TransfersPastEndHalt := fun x _ _ _ =>
  ⟨fun h => exec_halts (outOfMemory_outside (len := 3) (by decide) h),
    fun h => ⟨exec_halts (outOfMemory_outside (len := x.val + 1) (Nat.succ_pos _) h),
      exec_halts (outOfMemory_outside (len := x.val + 1) (Nat.succ_pos _) h)⟩,
    fun hn h => exec_halts (outOfMemory_outside hn h)⟩

end Sys2Proof.Machine
end

section
/-! PROOFS of the rest of the display statements (spec/44_display.md): the draw. -/

namespace Sys2Proof.Machine

/-! ### What a draw leaves (R152, R153) -/

theorem haltCause_drw {s : State} {n : Nat} (x y : Reg) (h : s.i.toNat + n ≤ 0x1000) :
    haltCause (.drw x y n) s = none :=
  outOfMemory_eq_none.2 (.inr h)

theorem completed_drw_flag (x y : Reg) (n : Nat) (s : State) :
    (completed (.drw x y n) s).reg 15 = flagByte (s.drawn x y n).2 :=
  State.reg_setReg_same _ regF _

theorem completed_drw_reg {r : Reg} (hr : r ≠ 15) (x y : Reg) (n : Nat) (s : State) :
    (completed (.drw x y n) s).reg r = s.reg r :=
  State.reg_setReg_other _ hr _

/-- The sprite XORed onto the framebuffer. -/
theorem completed_drw_pixel {n : Nat} (hn : n < 16) (x y : Reg) (s : State) (px : Fin 64)
    (py : Fin 32) : (completed (.drw x y n) s).pixel px py =
      (s.pixel px py != s.spriteCovers x y n px py) :=
  (State.drawn_spec s x y (by omega)).1 px py

/-- The flag is 1 exactly where the sprite and the framebuffer meet. -/
theorem completed_drw_collides {n : Nat} (hn : n < 16) (x y : Reg) (s : State) :
    (completed (.drw x y n) s).reg 15 = 1 ↔
      ∃ px py, s.spriteCovers x y n px py = true ∧ s.pixel px py = true := by
  rw [completed_drw_flag]
  exact (flagByte_eq_one _).trans (State.drawn_spec s x y (by omega)).2

/-- A draw moves no sprite whose coordinates are not in `VF`. -/
theorem spriteCovers_completed_drw {x y : Reg} (hx : x ≠ 15) (hy : y ≠ 15) (n : Nat) (s : State) :
    (completed (.drw x y n) s).spriteCovers x y n = s.spriteCovers x y n := by
  funext px py
  rw [State.spriteCovers, completed_drw_reg hx, completed_drw_reg hy]
  rfl

/-- Settles O49: the three parts of the draw's effect, and that the flag is a flag. -/
theorem drawXorsWrappedSprite : Obligations.DrawXorsWrappedSprite := by
  intro x y n s hn hin
  refine ⟨_, exec_completes (haltCause_drw x y hin), rfl, completed_drw_pixel hn x y s,
    completed_drw_collides hn x y s, ?flag, fun r hr => completed_drw_reg hr x y n s⟩
  case flag => exact completed_drw_flag x y n s ▸ flagByte_zero_or_one _

/-- Settles O50: the second draw covers the same pixels, so the two XORs cancel, and it meets a pixel
the first turned on exactly where that pixel was off. -/
theorem drawTwiceRestoresFramebuffer : Obligations.DrawTwiceRestoresFramebuffer := by
  intro x y n s hn hx hy hin
  let t := completed (.drw x y n) s
  have hcovers : t.spriteCovers x y n = s.spriteCovers x y n := spriteCovers_completed_drw hx hy n s
  have hpixel : ∀ px py, t.pixel px py = (s.pixel px py != s.spriteCovers x y n px py) :=
    completed_drw_pixel hn x y s
  refine ⟨t, completed (.drw x y n) t, exec_completes (haltCause_drw x y hin),
    exec_completes (haltCause_drw x y hin), fun px py => ?restored, ?collides⟩
  case restored =>
    rw [completed_drw_pixel hn x y t, hcovers, hpixel]
    simp
  case collides =>
    rw [completed_drw_collides hn x y t, hcovers]
    refine exists_congr fun px => exists_congr fun py => and_congr_right fun hcovered => ?_
    rw [hpixel, hcovered]
    simp

/-- Settles O51: a sprite of no rows draws nothing and hits nothing. -/
theorem emptySpriteClearsFlag : Obligations.EmptySpriteClearsFlag := fun x y s =>
  ⟨_, exec_completes (outOfMemory_eq_none.2 (.inl rfl)), rfl, completed_drw_flag x y 0 s,
    fun _ hr => completed_drw_reg hr x y 0 s⟩

end Sys2Proof.Machine
end

section
/-! PROOFS of the keypad and timer statements (spec/45_keypad_timers.md). -/

namespace Sys2Proof.Machine

/-- The key a skip tests is the one the low nibble names (R162). -/
theorem State.keyDown_lowNibble (s : State) (b : Byte) :
    s.keyDown (lowNibble b) = s.io.keys.getLsbD (b.toNat % 16) :=
  congrArg s.io.keys.getLsbD (lowNibble_val b)

/-- Settles O52: both skips test the level of the same key. -/
theorem keySkipsTestLevel : Obligations.KeySkipsTestLevel := by
  intro x s
  rw [exec_completes rfl, exec_completes rfl, completed, completed, State.keyDown_lowNibble]
  refine ⟨rfl, ?up⟩
  case up => simp only [State.skipIf, Bool.not_eq_true', ← Bool.not_eq_true, ite_not]; rfl

/-- Settles O53: the scan finds no key, or the least one down. -/
theorem keyWaitTakesLowestKey : Obligations.KeyWaitTakesLowestKey := by
  intro x s
  constructor
  · intro hkeys
    rw [exec_completes rfl, completed_ldVxK_waits hkeys]
    rfl
  · intro k hdown hleast
    have hk : s.lowestKey = some k := (State.lowestKey_eq_some s k).2 ⟨hdown, hleast⟩
    obtain ⟨t, ht, hframe, hx, hothers⟩ :=
      exec_writes_one rfl (completed_ldVxK_takes hk x)
    refine ⟨t, ht, ?number, hothers, hframe⟩
    case number => rw [hx, BitVec.toNat_ofNat]; omega

/-- Settles O54: each transfer writes one byte; the tone is on where that byte of `ST` is not zero. -/
theorem timerTransfers : Obligations.TimerTransfers := by
  intro x s
  obtain ⟨t, ht, hframe, hx, hothers⟩ := exec_writes_one (i := .ldVxDT x) (s := s) rfl rfl
  refine ⟨⟨t, ht, hx, hothers, hframe⟩, exec_completes rfl, _, exec_completes rfl, rfl, ?tone⟩
  case tone =>
    rw [State.tone, bne_iff_ne, ne_eq, ← BitVec.toNat_inj]
    rfl

end Sys2Proof.Machine
end
